-- ==== Sys2Proof/Word.lean ====
section
/-! DEFINITION. The widths of what crosses the codec's ports, and the three kinds of thing the host can present to it. -/

namespace Sys2Proof

/-- A byte (00_scope.md R8). -/
abbrev Byte := BitVec 8

/-- A command word `cmd[11:0]` (30_encoding.md R55). -/
abbrev CommandWord := BitVec 12

/-- The `value` field of a response, 18 bits unsigned (30_encoding.md R58). -/
abbrev Value := BitVec 18

/-- What the host presents to the block.
DESIGN CHOICE, log entry 2: the spec has a command port (R55), a reset event (R133) and the pseudo-operation FEED that
hands received wire bytes to FILL one by one (R64); the model makes one kind of input of each. -/
inductive Input where
  /-- One command word at the command port (R55). -/
  | command (w : CommandWord)
  /-- A chunk of received wire bytes, in arrival order, to be fed (R64 FEED, R45). -/
  | wire (bytes : List Byte)
  /-- The reset event (R133). -/
  | reset
  deriving DecidableEq, Repr

end Sys2Proof
end

