-- ==== Sys2Proof/Config.lean ====
section
/-! DEFINITION. The constants of the hardware (00_scope.md R7). The spec leaves no parameter open, so there is no free value here. -/

namespace Sys2Proof.Config

/-- `START`, the start delimiter. -/
def start : Byte := 0x7E

/-- `ESC`, the escape marker. -/
def marker : Byte := 0x7D

/-- `XON`, a special byte. -/
def xon : Byte := 0x11

/-- `XOFF`, a special byte. -/
def xoff : Byte := 0x13

/-- `ESC_XOR`, XORed into an escaped byte. -/
def escXor : Byte := 0x20

/-- `CHK_TOP`, the checksum's complement base and the target of verification. -/
def chkTop : Byte := 0xFF

/-- `HDR_LEN`, the start byte and the two length bytes. -/
def hdrLen : Nat := 3

/-- `MAX_PAYLOAD`, the largest payload length. -/
def maxPayload : Nat := 65535

/-- `ACC_CAP`, the capacity of the accumulator. -/
def accCap : Nat := 65539

/-- `MAX_OUT`, the length of the longest byte sequence OUTPUT answers. -/
def maxOut : Nat := 131075

/-- `ESCAPED_AT_RESET` (the spec's decision D14; log entry 9, unsafe). -/
def escapedAtReset : Bool := false

end Sys2Proof.Config
end

