-- ==== Sys2Proof/Machine/Flags.lean ====
section
/-! DEFINITION. The computations that decide a flag or a status: the additive checksum and its verification
(40_primitives.md R68 to R71), and what a received wire byte does to `esc_pending` (30_encoding.md R53, 40_primitives.md R76). -/

namespace Sys2Proof.Machine

/-- `add8` (R68): 8-bit addition, the carry out discarded. -/
def add8 (s b : Byte) : Byte := s + b

/-- `sum8` (R69): the left fold of `add8` from 0. -/
def sum8 (p : List Byte) : Byte := p.foldl add8 0

/-- `checksum` (R70). -/
def checksum (p : List Byte) : Byte := Config.chkTop - sum8 p

/-- `verify` (R71). -/
def verify (p : List Byte) (chk : Byte) : Bool := add8 (sum8 p) chk == Config.chkTop

/-- `unesc_step` (R76): is a marker pending, a wire byte; the new pending flag and the byte emitted, if any. -/
def unescStep (pending : Bool) (b : Byte) : Bool × Option Byte :=
  if pending then (false, some (b ^^^ Config.escXor))
  else if b = Config.marker then (true, none)
  else (false, some b)

/-- The table of R53 in the order of the tests in R96: the new `esc_pending`, and the byte stored, if any. The pending
flag is tested first (90_conflicts.md C2), and in either mode (log entry 14). -/
def receive (escaped pending : Bool) (b : Byte) : Bool × Option Byte :=
  if pending then (false, some (b ^^^ Config.escXor))
  else if escaped && b == Config.marker then (true, none)
  else (false, some b)

end Sys2Proof.Machine
end

