-- ==== Sys2Proof/Machine/Operands.lean ====
section
/-! DEFINITION. The byte sequences the operations work on: byte stuffing (40_primitives.md R73 to R77), the two length bytes
(20_memory.md R34) and the frame on the wire (30_encoding.md R46, R51). -/

namespace Sys2Proof.Machine

/-- `is_special` (R73). -/
def isSpecial (b : Byte) : Bool :=
  b == Config.start || b == Config.marker || b == Config.xon || b == Config.xoff

/-- `esc_byte` (R74). -/
def escByte (b : Byte) : List Byte :=
  if isSpecial b then [Config.marker, b ^^^ Config.escXor] else [b]

/-- `escape` (R75). -/
def escape (x : List Byte) : List Byte := x.flatMap escByte

/-- `unesc_step` over a sequence, from a pending flag: what is emitted, and the flag at the end (R77). -/
def unescapeFrom : Bool → List Byte → List Byte × Bool
  | p, [] => ([], p)
  | p, b :: bs =>
    let step := unescStep p b
    let rest := unescapeFrom step.1 bs
    (step.2.toList ++ rest.1, rest.2)

/-- `unescape` (R77): the flag is local and starts false. -/
def unescape (x : List Byte) : List Byte × Bool := unescapeFrom false x

/-- The declared length from its two bytes, big-endian (R19, R34). -/
def lengthOfBytes (msb lsb : Byte) : Nat := msb.toNat * 256 + lsb.toNat

/-- `LEN_MSB = n >> 8` (R34). -/
def lenMsb (n : Nat) : Byte := BitVec.ofNat 8 (n >>> 8)

/-- `LEN_LSB = n & 0xFF` (R34). -/
def lenLsb (n : Nat) : Byte := BitVec.ofNat 8 (n &&& 0xFF)

/-- The body of a frame (R51, R108): length, payload, checksum. -/
def frameBody (p : List Byte) : List Byte :=
  [lenMsb p.length, lenLsb p.length] ++ p ++ [checksum p]

/-- The frame on the wire (R46, R51, R108): START is never stuffed, the body is in escaped mode. -/
def frameBytes (escaped : Bool) (p : List Byte) : List Byte :=
  Config.start :: (if escaped then escape (frameBody p) else frameBody p)

end Sys2Proof.Machine
end

