-- ==== Sys2Proof/Machine/State.lean ====
section
/-! DEFINITION. The state of one codec instance (10_state.md R13, R30), its responses, and its state after reset (R28, R133). -/

namespace Sys2Proof.Machine

/-- The outcome an operation reports (30_encoding.md R59, 60_exceptions.md R115). -/
inductive Status where
  /-- The operation did what its rule says. -/
  | ok
  /-- PARSE: the complete frame's checksum does not verify (R116). -/
  | invalidChecksum
  /-- PARSE before the frame is complete (R119). -/
  | notReady
  /-- FILL after the frame is complete (R120). -/
  | overrun
  /-- PUT with 65535 bytes loaded (R121). -/
  | dataFull
  /-- A reserved command word (R122). -/
  | illegalCmd
  deriving DecidableEq, Repr

/-- The response to one operation (30_encoding.md R58). -/
structure Response where
  status : Status
  value  : Value
  out    : List Byte
  deriving DecidableEq, Repr

/-- The two private byte-addressed spaces (20_memory.md R31). -/
inductive Space where
  | acc
  | data
  deriving DecidableEq, Repr

/-- The six state elements of R13 in the view of R30, where `acc_cnt` and `data_len` are the lengths of the two
sequences (log entry 1), and the model's own two sides of the port: what the host has presented and is not yet taken
(`inputs`, log entry 2), and what the block has answered (`responses`, log entry 3), each oldest first. -/
structure State where
  escaped    : Bool
  escPending : Bool
  acc        : List Byte
  data       : List Byte
  inputs     : List Input
  responses  : List Response
  deriving DecidableEq, Repr

/-- Faults: there is none. "No outcome stops the block" (60_exceptions.md R115), and no address is ever out of range
(20_memory.md R31); nobody raises one (log entry 13, safe). -/
inductive Fault where
  deriving DecidableEq, Repr

/-- Refusals of the model (not the spec's refusals, which are responses; log entry 8). -/
inductive Refusal where
  /-- An arm of exec that has no meaning yet would answer this; every arm has one, so nobody raises it (safe). -/
  | notModelled (mnemonic : String)
  deriving DecidableEq, Repr

/-- The state after reset (R28, R133; `escaped` by the spec's decision D14, log entry 9), with nothing presented and
nothing answered (DESIGN CHOICE, log entries 2 and 3). -/
def State.reset : State where
  escaped    := Config.escapedAtReset
  escPending := false
  acc        := []
  data       := []
  inputs     := []
  responses  := []

end Sys2Proof.Machine
end

