-- ==== Sys2Proof/Machine/Ops.lean ====
section
/-! DEFINITION. The named operations over the state: reading the buffers and the counts (10_state.md, 20_memory.md), answering a
response, raising a status (60_exceptions.md), constructing a fresh frame, and accepting one wire byte. -/

namespace Sys2Proof.Machine

/-- The numeric code of a status (30_encoding.md R59). -/
def Status.code : Status → BitVec 4
  | .ok => 0x0
  | .invalidChecksum => 0x1
  | .notReady => 0x2
  | .overrun => 0x3
  | .dataFull => 0x4
  | .illegalCmd => 0x5

/-- The packed form of a response: `resp[21:18] = status`, `resp[17:0] = value` (R58). -/
def Response.packed (r : Response) : BitVec 22 := r.status.code ++ r.value

/-- `acc_cnt` (R16, R30). -/
def State.accCnt (s : State) : Nat := s.acc.length

/-- `data_len` (R18, R30). -/
def State.dataLen (s : State) : Nat := s.data.length

/-- The capacity of a buffer (R17, R18, R31). -/
def Space.capacity : Space → Nat
  | .acc => Config.accCap
  | .data => Config.maxPayload

/-- The bytes of a buffer, index 0 first. -/
def State.buffer (s : State) : Space → List Byte
  | .acc => s.acc
  | .data => s.data

/-- `MemRead` of one byte at (buffer, index) (00_scope.md R10): a byte at or beyond the count does not exist (20_memory.md R38). -/
def State.memRead (s : State) (sp : Space) (i : Nat) : Option Byte := (s.buffer sp)[i]?

/-- Both buffers are within their capacities: the canonical form of the memory (log entry 1). -/
def Memory.wf (s : State) : Bool :=
  decide (s.acc.length ≤ Space.acc.capacity) && decide (s.data.length ≤ Space.data.capacity)

/-- The declared length `L`, defined only when `acc_cnt >= 3` (R19). -/
def State.declaredLength (s : State) : Option Nat :=
  match s.acc with
  | _ :: msb :: lsb :: _ => some (lengthOfBytes msb lsb)
  | _ => none

/-- The remaining count `rem` (R20). -/
def State.rem (s : State) : Nat :=
  match s.declaredLength with
  | none => Config.hdrLen - s.accCnt
  | some len => (len + 1) - (s.accCnt - Config.hdrLen)

/-- The reception phases (41_frame_codec.md R93). -/
inductive Phase where
  | awaitingStart
  | accumulatingLength
  | accumulatingPayload
  | complete
  deriving DecidableEq, Repr

/-- The phase, a function of the state (R93, 90_conflicts.md C3). -/
def State.phase (s : State) : Phase :=
  if s.accCnt = 0 then .awaitingStart
  else if s.accCnt < 3 then .accumulatingLength
  else if s.rem = 0 then .complete
  else .accumulatingPayload

/-- What PARSE reads of a complete frame: the declared length, the payload and the checksum byte (20_memory.md R32). -/
structure Received where
  length   : Nat
  payload  : List Byte
  checksum : Byte
  deriving DecidableEq, Repr

/-- `acc[3 .. 3+L)` and `acc[3+L]`, once the accumulator holds them: exactly when `rem = 0` (R32, R100). -/
def State.received (s : State) : Option Received :=
  match s.declaredLength with
  | none => none
  | some len =>
    match s.memRead .acc (3 + len) with
    | none => none
    | some chk => some { length := len, payload := (s.acc.drop 3).take len, checksum := chk }

/-- Answer a response; `value` is narrowed to its 18 bits (30_encoding.md R58; log entries 3 and 15). -/
def State.respond (s : State) (status : Status) (value : Nat) (out : List Byte) : State :=
  { s with responses := s.responses ++ [{ status := status, value := BitVec.ofNat 18 value, out := out }] }

/-- `raise S` (00_scope.md R10), the one shared way to end with a status other than OK: nothing is saved, no mode is
switched and control goes nowhere (60_exceptions.md R126); the response is the whole report. There is no return from it
(R127): recovery is an ordinary operation. -/
def State.raise (s : State) (status : Status) (value : Nat) : State := s.respond status value []

/-- A fresh frame in mode `e`: what NEW and reset do to the six elements (41_frame_codec.md R92, 70_reset_and_hazards.md R133). -/
def State.fresh (s : State) (e : Bool) : State :=
  { s with escaped := e, escPending := false, acc := [], data := [] }

/-- Store or consume one wire byte (30_encoding.md R53). -/
def State.acceptByte (s : State) (b : Byte) : State :=
  let r := receive s.escaped s.escPending b
  { s with escPending := r.1, acc := s.acc ++ r.2.toList }

/-- One wire byte fed to the codec, with its response (41_frame_codec.md R96). -/
def State.feed (s : State) (b : Byte) : State :=
  if s.rem = 0 then s.raise .overrun 0
  else (s.acceptByte b).respond .ok (s.acceptByte b).rem []

end Sys2Proof.Machine
end

