-- ==== Sys2Proof/Machine/Frame.lean ====
section
/-! DEFINITION. The six operations of the Frame Codec: NEW, FILL, REM, PARSE, PUT, OUTPUT (41_frame_codec.md). -/

namespace Sys2Proof.Machine

/-- NEW e (R92). -/
def execNew (e : Bool) (s : State) : Host.Outcome State Fault Refusal :=
  .next ((s.fresh e).respond .ok 0 [])

/-- FILL b (R96). -/
def execFill (b : Byte) (s : State) : Host.Outcome State Fault Refusal :=
  .next (s.feed b)

/-- REM (R95). -/
def execRem (s : State) : Host.Outcome State Fault Refusal :=
  .next (s.respond .ok s.rem [])

/-- PARSE (R100): NOT_READY before INVALID_CHECKSUM (60_exceptions.md R125). -/
def execParse (s : State) : Host.Outcome State Fault Refusal :=
  match s.received with
  | none => .next (s.raise .notReady s.rem)
  | some f =>
    if verify f.payload f.checksum then
      .next (({ s with data := f.payload } : State).respond .ok f.length f.payload)
    else .next (s.raise .invalidChecksum f.length)

/-- PUT b (R103). -/
def execPut (b : Byte) (s : State) : Host.Outcome State Fault Refusal :=
  if s.dataLen = Config.maxPayload then .next (s.raise .dataFull Config.maxPayload)
  else .next (({ s with data := s.data ++ [b] } : State).respond .ok (s.dataLen + 1) [])

/-- OUTPUT (R108). -/
def execOutput (s : State) : Host.Outcome State Fault Refusal :=
  .next (s.respond .ok (frameBytes s.escaped s.data).length (frameBytes s.escaped s.data))

end Sys2Proof.Machine
end

