-- ==== Sys2Proof/Machine/Primitive.lean ====
section
/-! DEFINITION. The four primitive operations CSUM, VERIFY, ESC, UNESC (40_primitives.md R80 to R84): functions of `data`, whatever
the mode. -/

namespace Sys2Proof.Machine

/-- CSUM (R80). -/
def execCsum (s : State) : Host.Outcome State Fault Refusal :=
  .next (s.respond .ok (checksum s.data).toNat [])

/-- VERIFY c (R81): a mismatch is value 0 with status OK. -/
def execVerify (c : Byte) (s : State) : Host.Outcome State Fault Refusal :=
  .next (s.respond .ok (if verify s.data c then 1 else 0) [])

/-- ESC (R82). -/
def execEsc (s : State) : Host.Outcome State Fault Refusal :=
  .next (s.respond .ok (escape s.data).length (escape s.data))

/-- UNESC (R83): the pending flag is local; a dangling marker is value 1 with status OK. -/
def execUnesc (s : State) : Host.Outcome State Fault Refusal :=
  .next (s.respond .ok (if (unescape s.data).2 then 1 else 0) (unescape s.data).1)

end Sys2Proof.Machine
end

