-- ==== Sys2Proof/Machine/Wire.lean ====
section
/-! DEFINITION. The seven wire rows of spec/opcode_table.json: their bytes arrive and are fed in order, one FILL each (20_memory.md
R31, 30_encoding.md R53, R64 FEED; DEDUCED, log entries 4 and 5). -/

namespace Sys2Proof.Machine

/-- WIRE.START (R47): 0x7E arrives; the receiver does not test it (R98). -/
def execWireStart (s : State) : Host.Outcome State Fault Refusal :=
  .next (s.feed Config.start)

/-- WIRE.MARKER (R53): 0x7D arrives alone. -/
def execWireMarker (s : State) : Host.Outcome State Fault Refusal :=
  .next (s.feed Config.marker)

/-- WIRE.PAIR (R53): 0x7D and then any byte `x` arrive. -/
def execWirePair (x : Byte) (s : State) : Host.Outcome State Fault Refusal :=
  .next ((s.feed Config.marker).feed x)

/-- WIRE.PAIR.7E (R52). -/
def execWirePair7E (s : State) : Host.Outcome State Fault Refusal :=
  .next ((s.feed Config.marker).feed 0x5E)

/-- WIRE.PAIR.7D (R52). -/
def execWirePair7D (s : State) : Host.Outcome State Fault Refusal :=
  .next ((s.feed Config.marker).feed 0x5D)

/-- WIRE.PAIR.11 (R52). -/
def execWirePair11 (s : State) : Host.Outcome State Fault Refusal :=
  .next ((s.feed Config.marker).feed 0x31)

/-- WIRE.PAIR.13 (R52). -/
def execWirePair13 (s : State) : Host.Outcome State Fault Refusal :=
  .next ((s.feed Config.marker).feed 0x33)

end Sys2Proof.Machine
end

