-- ==== Sys2Proof/Syntax.lean ====
section
/-! DEFINITION. The instructions: one constructor for each row of spec/opcode_table.json. -/

namespace Sys2Proof

/-- The ten operations of the command port (30_encoding.md R56) and the seven wire encodings (R47, R52, R53).
A wire row is those bytes arriving on the receive side (log entry 4). -/
inductive Instr where
  /-- NEW e: start a fresh frame in mode `e` (41_frame_codec.md R92). -/
  | new (e : Bool)
  /-- FILL b: feed one wire byte (R96). -/
  | fill (b : Byte)
  /-- REM: ask for the remaining count (R95). -/
  | rem
  /-- PARSE: check the complete frame and expose its payload (R100). -/
  | parse
  /-- PUT b: load one payload byte (R103). -/
  | put (b : Byte)
  /-- OUTPUT: serialise the payload (R108). -/
  | output
  /-- CSUM: the checksum of the payload (40_primitives.md R80). -/
  | csum
  /-- VERIFY c: does `c` verify the payload (R81). -/
  | verify (c : Byte)
  /-- ESC: the payload escaped (R82). -/
  | esc
  /-- UNESC: the payload unescaped (R83). -/
  | unesc
  /-- WIRE.START: the start delimiter 0x7E arrives (R47). -/
  | wireStart
  /-- WIRE.MARKER: a 0x7D with nothing after it in its chunk arrives (R53). -/
  | wireMarker
  /-- WIRE.PAIR: 0x7D and then `x` arrive (R53). -/
  | wirePair (x : Byte)
  /-- WIRE.PAIR.7E: 0x7D 0x5E arrives, the escape pair of 0x7E (R52). -/
  | wirePair7E
  /-- WIRE.PAIR.7D: 0x7D 0x5D arrives, the escape pair of 0x7D (R52). -/
  | wirePair7D
  /-- WIRE.PAIR.11: 0x7D 0x31 arrives, the escape pair of 0x11 (R52). -/
  | wirePair11
  /-- WIRE.PAIR.13: 0x7D 0x33 arrives, the escape pair of 0x13 (R52). -/
  | wirePair13
  deriving DecidableEq, Repr

end Sys2Proof
end

