-- ==== Sys2Proof/Machine/Dispatch.lean ====
section
/-! DEFINITION. One arm for each instruction. -/

namespace Sys2Proof.Machine

def exec (i : Instr) (s : State) : Host.Outcome State Fault Refusal :=
  match i with
  | .new e => Sys2Proof.Machine.execNew e s
  | .fill b => Sys2Proof.Machine.execFill b s
  | .rem => Sys2Proof.Machine.execRem s
  | .parse => Sys2Proof.Machine.execParse s
  | .put b => Sys2Proof.Machine.execPut b s
  | .output => Sys2Proof.Machine.execOutput s
  | .csum => Sys2Proof.Machine.execCsum s
  | .verify c => Sys2Proof.Machine.execVerify c s
  | .esc => Sys2Proof.Machine.execEsc s
  | .unesc => Sys2Proof.Machine.execUnesc s
  | .wireStart => Sys2Proof.Machine.execWireStart s
  | .wireMarker => Sys2Proof.Machine.execWireMarker s
  | .wirePair x => Sys2Proof.Machine.execWirePair x s
  | .wirePair7E => Sys2Proof.Machine.execWirePair7E s
  | .wirePair7D => Sys2Proof.Machine.execWirePair7D s
  | .wirePair11 => Sys2Proof.Machine.execWirePair11 s
  | .wirePair13 => Sys2Proof.Machine.execWirePair13 s

end Sys2Proof.Machine
end

