-- ==== Sys2Proof/WellFormed.lean ====
section
/-! DEFINITION. Which instructions the encodings admit. -/

namespace Sys2Proof

/-- The second bytes of the four escape pairs that have a row, and a constructor, of their own (30_encoding.md R52). -/
def isTransmittedSecond (x : Byte) : Bool :=
  x == 0x5E || x == 0x5D || x == 0x31 || x == 0x33

/-- Every operand value is legal (R14, R49, R57), but for one check: WIRE.PAIR is the row of the pairs that no
transmitter sends, and a pair with a row of its own is written with that row's constructor (log entry 7). -/
def Instr.wf : Instr → Bool
  | .wirePair x => !isTransmittedSecond x
  | .new _ | .fill _ | .rem | .parse | .put _ | .output | .csum | .verify _ | .esc | .unesc
  | .wireStart | .wireMarker | .wirePair7E | .wirePair7D | .wirePair11 | .wirePair13 => true

end Sys2Proof
end

