-- ==== Sys2Proof/Decode.lean ====
section
/-! DEFINITION. Decoding of command words (30_encoding.md R55 to R57, R60) and of received wire bytes (R47, R52, R53), total on
every input, and the encoder. -/

namespace Sys2Proof

/-- Why a command word is reserved: the three cases of 30_encoding.md R60. -/
inductive Reserved where
  /-- `op` is 0x0, 0x7, 0xC, 0xD, 0xE or 0xF. -/
  | opcode
  /-- An operation without operand, and `arg` is not 0. -/
  | operand
  /-- NEW, and `arg[7:1]` is not 0. -/
  | newOperand
  deriving DecidableEq, Repr

/-- `op = cmd[11:8]` (R55). -/
def opField (w : CommandWord) : BitVec 4 := w.extractLsb' 8 4

/-- `arg = cmd[7:0]` (R55). -/
def argField (w : CommandWord) : Byte := w.extractLsb' 0 8

/-- An operation without operand: `arg` must be zero (R55, R60). -/
def decodeNoOperand (i : Instr) (arg : Byte) : Except Reserved Instr :=
  if arg = 0 then .ok i else .error .operand

/-- NEW: `e = arg[0]`, and `arg[7:1]` must be zero (R55, R57, R60). -/
def decodeNew (arg : Byte) : Except Reserved Instr :=
  if arg.extractLsb' 1 7 = 0 then .ok (.new (arg.getLsbD 0)) else .error .newOperand

/-- The operation map R56: a command word is one operation, or reserved by name (R60). -/
def decodeCommand (w : CommandWord) : Except Reserved Instr :=
  match (opField w).toNat with
  | 0x1 => decodeNew (argField w)
  | 0x2 => .ok (.fill (argField w))
  | 0x3 => decodeNoOperand .rem (argField w)
  | 0x4 => decodeNoOperand .parse (argField w)
  | 0x5 => .ok (.put (argField w))
  | 0x6 => decodeNoOperand .output (argField w)
  | 0x8 => decodeNoOperand .csum (argField w)
  | 0x9 => .ok (.verify (argField w))
  | 0xA => decodeNoOperand .esc (argField w)
  | 0xB => decodeNoOperand .unesc (argField w)
  | _ => .error .opcode

/-- The row of an escape pair, by its second byte (R52, R53). -/
def decodePair (x : Byte) : Instr :=
  if x = 0x5E then .wirePair7E
  else if x = 0x5D then .wirePair7D
  else if x = 0x31 then .wirePair11
  else if x = 0x33 then .wirePair13
  else .wirePair x

/-- The first wire item of a chunk and the bytes after it (R53). 0x7D takes the byte after it in the chunk with it; a
byte that is neither 0x7D nor 0x7E has no row, and is simply fed: FILL (R53, R61; log entries 4 and 5).
An empty chunk holds no item. -/
def decodeWire : List Byte → Option (Instr × List Byte)
  | [] => none
  | [b] => some (if b = Config.start then .wireStart else if b = Config.marker then .wireMarker else .fill b, [])
  | b :: x :: rest =>
    if b = Config.marker then some (decodePair x, rest)
    else some (if b = Config.start then .wireStart else .fill b, x :: rest)

/-- The first instruction of an input, and the wire bytes left of the chunk (none left of a command word). A reserved
word, an empty chunk and the reset event hold no instruction. -/
def decodeInput : Input → Option (Instr × List Byte)
  | .command w =>
    match decodeCommand w with
    | .ok i => some (i, [])
    | .error _ => none
  | .wire bytes => decodeWire bytes
  | .reset => none

/-- The command word with these two fields (R55). -/
def commandWord (op : BitVec 4) (arg : Byte) : CommandWord := op ++ arg

/-- The encoding of an instruction: R56 for the operations, R47, R52 and R53 for the wire rows. -/
def encode : Instr → Input
  | .new e => .command (commandWord 0x1 (if e then 1 else 0))
  | .fill b => .command (commandWord 0x2 b)
  | .rem => .command (commandWord 0x3 0)
  | .parse => .command (commandWord 0x4 0)
  | .put b => .command (commandWord 0x5 b)
  | .output => .command (commandWord 0x6 0)
  | .csum => .command (commandWord 0x8 0)
  | .verify c => .command (commandWord 0x9 c)
  | .esc => .command (commandWord 0xA 0)
  | .unesc => .command (commandWord 0xB 0)
  | .wireStart => .wire [Config.start]
  | .wireMarker => .wire [Config.marker]
  | .wirePair x => .wire [Config.marker, x]
  | .wirePair7E => .wire [Config.marker, 0x5E]
  | .wirePair7D => .wire [Config.marker, 0x5D]
  | .wirePair11 => .wire [Config.marker, 0x31]
  | .wirePair13 => .wire [Config.marker, 0x33]

/-- The input that holds the instruction numbered `w` by spec/opcode_table.json. The table's three formats never share a
number: WIRE8 rows have 8 bits, CMD12 numbers are below 0x1000, and WIRE16 numbers have 0x7D in bits 15..8, which
is the byte that comes first on the wire (DEDUCED, log entry 6). -/
def inputOfTableWord (nbits w : Nat) : Input :=
  if nbits ≤ 8 then .wire [BitVec.ofNat 8 w]
  else if w < 0x1000 then .command (BitVec.ofNat 12 w)
  else .wire [BitVec.ofNat 8 (w / 256), BitVec.ofNat 8 w]

/-- The instruction the decoder reads from those bits: the whole of them, or none. -/
def decodeTableWord (nbits w : Nat) : Option Instr :=
  match decodeInput (inputOfTableWord nbits w) with
  | some (i, []) => some i
  | some (_, _ :: _) => none
  | none => none

end Sys2Proof
end

