-- ==== Sys2Proof/Machine/Fetch.lean ====
section
/-! DEFINITION. Taking the next thing the host has presented (30_encoding.md R55, R60, R64; 70_reset_and_hazards.md R133, R135). -/

namespace Sys2Proof.Machine

/-- What taking the next input gives: an instruction to run, or the whole effect of the step. -/
inductive Fetched where
  /-- The decoder gave an instruction; it runs in this state, from which the input is already taken. -/
  | run (i : Instr) (s : State)
  /-- Nothing to run: the block is idle, was reset, refused a reserved word, or dropped an empty chunk. -/
  | done (s : State)
  deriving DecidableEq, Repr

/-- The inputs after the first wire item of a chunk is taken. -/
def remainingInputs (left : List Byte) (rest : List Input) : List Input :=
  match left with
  | [] => rest
  | _ :: _ => .wire left :: rest

/-- The oldest input is taken. With none, the block is idle and keeps its state (60_exceptions.md R130). A reserved word is refused
with ILLEGAL_CMD (R60, R122). The reset event gives the reset values, with no response (R133; log entry 11). -/
def fetch (s : State) : Fetched :=
  match s.inputs with
  | [] => .done s
  | .reset :: rest => .done (({ s with inputs := rest } : State).fresh Config.escapedAtReset)
  | .command w :: rest =>
    match decodeCommand w with
    | .ok i => .run i { s with inputs := rest }
    | .error _ => .done (({ s with inputs := rest } : State).raise .illegalCmd 0)
  | .wire bytes :: rest =>
    match decodeWire bytes with
    | some (i, left) => .run i { s with inputs := remainingInputs left rest }
    | none => .done { s with inputs := rest }

end Sys2Proof.Machine
end

