-- ==== Sys2Proof/Machine/Step.lean ====
section
/-! DEFINITION. One step: take the oldest input and run it (20_memory.md R40, R41). -/

namespace Sys2Proof.Machine

/-- One operation, one wire item, one reset, or an idle step. -/
def step (s : State) : Host.Outcome State Fault Refusal :=
  match fetch s with
  | .run i t => exec i t
  | .done t => .next t

/-- `s` with the instruction of those bits presented as its oldest input (log entry 10). -/
def State.withFetchWord (s : State) (nbits w : Nat) : State :=
  { s with inputs := inputOfTableWord nbits w :: s.inputs }

end Sys2Proof.Machine
end

