-- ==== Sys2Proof/Safety.lean ====
section
/-! DEFINITION. What claims are stated in terms of: the invariants of 10_state.md R27, reserved command words (30_encoding.md R60),
and sequences of instructions (70_reset_and_hazards.md R138). -/

namespace Sys2Proof.Machine

/-- The invariants V1 to V4 of R27, in that order (V5 compares two states, and is stated of a step). -/
structure State.Inv (s : State) : Prop where
  /-- V1. -/
  pendingEscaped : s.escPending = true → s.escaped = true
  /-- V2. -/
  withinFrame : ∀ len, s.declaredLength = some len → s.accCnt ≤ len + 4
  /-- V3. -/
  dataFits : s.dataLen ≤ 65535
  /-- V4. -/
  pendingIncomplete : s.escPending = true → 0 < s.rem

/-- The reserved command words, in the words of R60. -/
def IsReservedWord (w : CommandWord) : Prop :=
  (w.toNat / 256 ∈ [0x0, 0x7, 0xC, 0xD, 0xE, 0xF])
  ∨ (w.toNat / 256 ∈ [0x3, 0x4, 0x6, 0x8, 0xA, 0xB] ∧ w.toNat % 256 ≠ 0)
  ∨ (w.toNat / 256 = 0x1 ∧ w.toNat % 256 / 2 ≠ 0)

/-- The instructions one after another, to the first that does not answer a next state. -/
def execAll : List Instr → State → Host.Outcome State Fault Refusal
  | [], s => .next s
  | i :: is, s =>
    match exec i s with
    | .next t => execAll is t
    | .fault r => .fault r
    | .refused r => .refused r

end Sys2Proof.Machine
end

