-- ==== Sys2Proof/Certificates/Slice0/Obligations.lean ====
section
/-! DEFINITION. The statements for the provers. A docstring names the rule of spec/ a statement comes from; where the content is a
decision of the spec (92_eei_decisions.md D<n>) or a choice of the model (log entry <n>) it says so. -/

open Sys2Proof Sys2Proof.Machine

/-! ### Encodings -/

/-- Decoding the encoding of a well-formed instruction gives it back, with nothing left over: all ten operations and all
seven wire rows, every operand. The command words are the spec's decision D3; the wire rows are log entries 4 to 7. -/
def Obligations.DecodeOfEncodeIsTheInstruction : Prop :=
  ∀ i : Instr, i.wf = true → decodeInput (encode i) = some (i, [])

/-- A command word that decodes is the encoding of what it decodes to: no bit of it is ignored (30_encoding.md R60, decision D7). -/
def Obligations.CommandWordHasOneMeaning : Prop :=
  ∀ (w : CommandWord) (i : Instr), decodeCommand w = .ok i → encode i = .command w

/-- The decoder rejects the reserved words of R60 and no other (decision D7). -/
def Obligations.DecoderRejectsExactlyReserved : Prop :=
  ∀ w : CommandWord, (∃ r, decodeCommand w = .error r) ↔ IsReservedWord w

/-- The command words written out in 30_encoding.md R63 and reserved words of 95_test_vectors.md 2.7 (decision D3), and the wire encodings
as spec/opcode_table.json numbers them (log entry 6). -/
def Obligations.EncodingsOfTheSpec : Prop :=
  (decodeCommand 0x100 = .ok (.new false) ∧ decodeCommand 0x101 = .ok (.new true)
    ∧ decodeCommand 0x27E = .ok (.fill 0x7E) ∧ decodeCommand 0x300 = .ok .rem
    ∧ decodeCommand 0x400 = .ok .parse ∧ decodeCommand 0x541 = .ok (.put 0x41)
    ∧ decodeCommand 0x600 = .ok .output ∧ decodeCommand 0x800 = .ok .csum
    ∧ decodeCommand 0x9FF = .ok (.verify 0xFF) ∧ decodeCommand 0xA00 = .ok .esc
    ∧ decodeCommand 0xB00 = .ok .unesc
    ∧ decodeCommand 0x102 = .error .newOperand ∧ decodeCommand 0x301 = .error .operand
    ∧ decodeCommand 0x700 = .error .opcode)
  ∧ decodeTableWord 8 0x7E = some .wireStart ∧ decodeTableWord 8 0x7D = some .wireMarker
  ∧ decodeTableWord 16 0x7D23 = some (.wirePair 0x23)
  ∧ decodeTableWord 16 0x7D5E = some .wirePair7E ∧ decodeTableWord 16 0x7D5D = some .wirePair7D
  ∧ decodeTableWord 16 0x7D31 = some .wirePair11 ∧ decodeTableWord 16 0x7D33 = some .wirePair13

/-- Decoding a chunk of wire bytes loses none: the item's own bytes and what is left make up the chunk, the item's
bytes are its encoding (or, for a byte without a row, the operand of FILL), and only an empty chunk holds no item
(log entries 4 and 5). -/
def Obligations.WireItemsLoseNoByte : Prop :=
  (∀ (bytes left : List Byte) (i : Instr), decodeWire bytes = some (i, left) →
    ∃ front, front ≠ [] ∧ bytes = front ++ left
      ∧ (encode i = .wire front ∨ ∃ b, i = .fill b ∧ front = [b]))
  ∧ ∀ bytes : List Byte, decodeWire bytes = none ↔ bytes = []

/-! ### The step -/

/-- A step runs the decoded command, from the state from which the command word is taken (20_memory.md R40, R41). -/
def Obligations.StepRunsTheDecodedCommand : Prop :=
  ∀ (s : State) (w : CommandWord) (rest : List Input) (i : Instr),
    s.inputs = .command w :: rest → decodeCommand w = .ok i →
    step s = exec i { s with inputs := rest }

/-- A step runs the first item of a chunk of wire bytes, and what is left of the chunk stays the oldest input (log entries 2, 4, 5). -/
def Obligations.StepRunsTheDecodedWireItem : Prop :=
  ∀ (s : State) (bytes left : List Byte) (rest : List Input) (i : Instr),
    s.inputs = .wire bytes :: rest → decodeWire bytes = some (i, left) →
    step s = exec i { s with inputs := if left = [] then rest else .wire left :: rest }

/-- A reserved word changes no state element and is answered ILLEGAL_CMD, value 0, no bytes (R60, R122, decision D7). -/
def Obligations.ReservedWordIsRefused : Prop :=
  ∀ (s : State) (w : CommandWord) (rest : List Input),
    IsReservedWord w → s.inputs = .command w :: rest →
    step s = .next { s with
      inputs := rest
      responses := s.responses ++ [{ status := .illegalCmd, value := 0, out := [] }] }

/-- With nothing presented the block keeps its whole state (60_exceptions.md R130; log entry 2), and an empty chunk is dropped. -/
def Obligations.StepWithoutInstruction : Prop :=
  (∀ s : State, s.inputs = [] → step s = .next s)
  ∧ ∀ (s : State) (rest : List Input), s.inputs = .wire [] :: rest → step s = .next { s with inputs := rest }

/-- The reset event gives the six elements their reset values and answers nothing (70_reset_and_hazards.md R133, decision D14;
log entry 11). -/
def Obligations.ResetEventGivesTheResetValues : Prop :=
  ∀ (s : State) (rest : List Input), s.inputs = .reset :: rest →
    step s = .next { escaped := false, escPending := false, acc := [], data := [],
                     inputs := rest, responses := s.responses }

/-- The reset values of 10_state.md R28, and that the reset state is the state after NEW 0 but for the response (decision
D14; the two port fields are log entries 2 and 3). -/
def Obligations.ResetStateIsAFreshFrame : Prop :=
  State.reset.escaped = false ∧ State.reset.escPending = false ∧ State.reset.accCnt = 0 ∧ State.reset.acc = []
  ∧ State.reset.dataLen = 0 ∧ State.reset.data = []
  ∧ exec (.new false) State.reset
      = .next { State.reset with responses := [{ status := .ok, value := 0, out := [] }] }

/-- What each query answers after reset (R134, derived in the spec from R133). -/
def Obligations.AnswersAfterReset : Prop :=
  exec .rem State.reset = .next { State.reset with responses := [{ status := .ok, value := 3, out := [] }] }
  ∧ exec .parse State.reset = .next { State.reset with responses := [{ status := .notReady, value := 3, out := [] }] }
  ∧ exec .output State.reset
      = .next { State.reset with responses := [{ status := .ok, value := 4, out := [0x7E, 0x00, 0x00, 0xFF] }] }
  ∧ exec .csum State.reset = .next { State.reset with responses := [{ status := .ok, value := 0xFF, out := [] }] }
  ∧ exec .esc State.reset = .next { State.reset with responses := [{ status := .ok, value := 0, out := [] }] }
  ∧ exec .unesc State.reset = .next { State.reset with responses := [{ status := .ok, value := 0, out := [] }] }

/-- A chunk of wire bytes, run to its end by steps, does what FILL on each of its bytes in order does, whatever items the decoder
makes of it (R64 FEED; log entries 4 and 5). -/
def Obligations.WireChunkIsFedByteByByte : Prop :=
  ∀ (s : State) (bytes : List Byte) (rest : List Input), s.inputs = .wire bytes :: rest →
    ∃ n t, Sys2Proof.core.run n s = .next t
      ∧ execAll (bytes.map .fill) { s with inputs := rest } = .next t

/-- No step faults or refuses: the block always completes and takes the next operation (60_exceptions.md R115, R131, 70 R138). -/
def Obligations.EveryStepCompletes : Prop :=
  ∀ s : State, ∃ t, step s = .next t

/-! ### The Frame Codec operations -/

/-- NEW e (41_frame_codec.md R92, decision D4): accepted in every state, the four elements written, the response, and the remaining
count of the fresh frame. -/
def Obligations.NewStartsAFreshFrame : Prop :=
  ∀ (e : Bool) (s : State),
    ∃ t, exec (.new e) s = .next t
      ∧ t = { escaped := e, escPending := false, acc := [], data := [], inputs := s.inputs,
              responses := s.responses ++ [{ status := .ok, value := 0, out := [] }] }
      ∧ t.rem = 3

/-- NEW is the only instruction that writes `escaped` (10_state.md R14, decision D4). -/
def Obligations.OnlyNewWritesEscaped : Prop :=
  ∀ (i : Instr) (s t : State), exec i s = .next t → (∀ e, i ≠ .new e) → t.escaped = s.escaped

/-- The declared length is defined from the third byte on, and is the big-endian value of bytes 1 and 2 (10_state.md R19). -/
def Obligations.DeclaredLengthIsBigEndian : Prop :=
  ∀ s : State,
    (s.declaredLength = none ↔ s.accCnt < 3)
    ∧ ∀ msb lsb : Byte, s.memRead .acc 1 = some msb → s.memRead .acc 2 = some lsb →
        s.declaredLength = some (msb.toNat * 256 + lsb.toNat) ∧ msb.toNat * 256 + lsb.toNat ≤ 65535

/-- The remaining count (10_state.md R20): its two cases in every state, never 0 in the header phase, `L + 1` when the header is just
complete, and, under V2 of R27, a number up to 65536 that the subtraction does not cut off and that is 0 exactly when the frame is
complete. -/
def Obligations.RemainingCountFormula : Prop :=
  ∀ s : State,
    (s.accCnt < 3 → s.rem = 3 - s.accCnt ∧ s.rem ≠ 0)
    ∧ ∀ len, s.declaredLength = some len →
        s.rem = (len + 1) - (s.accCnt - 3)
        ∧ (s.accCnt = 3 → s.rem = len + 1)
        ∧ (s.accCnt ≤ len + 4 →
            s.rem + s.accCnt = len + 4 ∧ s.rem ≤ 65536 ∧ (s.rem = 0 ↔ 3 ≤ s.accCnt ∧ s.accCnt = len + 4))

/-- REM (41_frame_codec.md R95): the encoding, the answer in terms of the accumulator's bytes, and nothing else written. -/
def Obligations.RemAnswersTheRemainingCount : Prop :=
  encode .rem = .command 0x300 ∧
  ∀ s : State, ∃ v : Value,
    exec .rem s = .next { s with responses := s.responses ++ [{ status := .ok, value := v, out := [] }] }
    ∧ (s.acc.length < 3 → v.toNat = 3 - s.acc.length)
    ∧ ∀ (start msb lsb : Byte) (body : List Byte), s.acc = start :: msb :: lsb :: body →
        v.toNat = (msb.toNat * 256 + lsb.toNat + 1) - (s.acc.length - 3)

/-- FILL on an incomplete frame (30_encoding.md R53): each reachable row of the table. -/
def Obligations.FillStoresOrConsumes : Prop :=
  ∀ (s : State) (b : Byte), s.rem ≠ 0 → ∃ t, exec (.fill b) s = .next t
    ∧ (s.escaped = false → s.escPending = false → t.acc = s.acc ++ [b] ∧ t.escPending = false)
    ∧ (s.escaped = true → s.escPending = false → b = 0x7D → t.acc = s.acc ∧ t.escPending = true)
    ∧ (s.escaped = true → s.escPending = false → b ≠ 0x7D → t.acc = s.acc ++ [b] ∧ t.escPending = false)
    ∧ (s.escaped = true → s.escPending = true → t.acc = s.acc ++ [b ^^^ 0x20] ∧ t.escPending = false)

/-- The response and the frame of FILL on an incomplete frame (R96; the response is decision D3): status OK, the remaining count after
the writes, no bytes; nothing written but `acc` at index `acc_cnt` and the pending flag (20_memory.md R37). -/
def Obligations.FillAnswersTheNewCount : Prop :=
  ∀ (s : State) (b : Byte), s.rem ≠ 0 → ∃ (t : State) (v : Value), exec (.fill b) s = .next t
    ∧ v.toNat = t.rem
    ∧ t = { s with
        acc := t.acc
        escPending := t.escPending
        responses := s.responses ++ [{ status := .ok, value := v, out := [] }] }
    ∧ (∀ a, a ≠ s.accCnt → t.memRead .acc a = s.memRead .acc a)
    ∧ ∀ a, t.memRead .data a = s.memRead .data a

/-- FILL on a complete frame drops the byte: OVERRUN, value 0, nothing written (60_exceptions.md R120). The outcome is the
spec's decision D5 (log entry 8). -/
def Obligations.FillOnACompleteFrameIsOverrun : Prop :=
  ∀ (s : State) (b : Byte), s.rem = 0 →
    exec (.fill b) s
      = .next { s with responses := s.responses ++ [{ status := .overrun, value := 0, out := [] }] }

/-- How an accepted FILL moves the remaining count (41_frame_codec.md R99, derived in the spec): unchanged by a consumed marker, lower
by 1 by a stored byte, but for the second length byte, after which it jumps from 1 to `L + 1`. -/
def Obligations.FillMovesTheCount : Prop :=
  ∀ (s t : State) (b : Byte), s.rem ≠ 0 → exec (.fill b) s = .next t →
    (t.accCnt = s.accCnt → t.rem = s.rem)
    ∧ (t.accCnt ≠ s.accCnt → s.accCnt ≠ 2 → t.rem + 1 = s.rem)
    ∧ (t.accCnt ≠ s.accCnt → s.accCnt = 2 → s.rem = 1 ∧ ∃ len, t.declaredLength = some len ∧ t.rem = len + 1)

/-- PARSE on a complete frame whose checksum verifies (41_frame_codec.md R100; decisions D3, D18): the payload becomes `data`
and is answered with its length. -/
def Obligations.ParseDeliversTheVerifiedPayload : Prop :=
  ∀ (s : State) (start msb lsb chk : Byte) (p : List Byte),
    s.acc = [start, msb, lsb] ++ p ++ [chk] → p.length = msb.toNat * 256 + lsb.toNat →
    ((p.map BitVec.toNat).sum + chk.toNat) % 256 = 255 →
    exec .parse s = .next { s with
      data := p
      responses := s.responses ++ [{ status := .ok, value := BitVec.ofNat 18 p.length, out := p }] }

/-- PARSE on a complete frame whose checksum does not verify (60_exceptions.md R116; that `data` is kept is decision D18): status
INVALID_CHECKSUM with the declared length, and nothing written. -/
def Obligations.ParseReportsAnInvalidChecksum : Prop :=
  ∀ (s : State) (start msb lsb chk : Byte) (p : List Byte),
    s.acc = [start, msb, lsb] ++ p ++ [chk] → p.length = msb.toNat * 256 + lsb.toNat →
    ((p.map BitVec.toNat).sum + chk.toNat) % 256 ≠ 255 →
    exec .parse s = .next { s with
      responses := s.responses ++ [{ status := .invalidChecksum, value := BitVec.ofNat 18 p.length, out := [] }] }

/-- PARSE on an incomplete frame is refused with the remaining count, and nothing is written (60_exceptions.md R119; the
outcome is the spec's decision D6, log entry 8). -/
def Obligations.ParseOfAnIncompleteFrameIsNotReady : Prop :=
  ∀ s : State, s.rem ≠ 0 →
    ∃ v : Value, v.toNat = s.rem ∧
      exec .parse s = .next { s with responses := s.responses ++ [{ status := .notReady, value := v, out := [] }] }

/-- The empty frame (41_frame_codec.md R102): complete at four bytes, accepted exactly with checksum 0xFF, an ordinary success.
With another checksum the answer is R100 and R116: status INVALID_CHECKSUM with the declared length 0, `data` kept (decisions
D3, D18; log entries 8, 16). -/
def Obligations.ParseOfTheEmptyFrame : Prop :=
  ∀ (s : State) (start chk : Byte), s.acc = [start, 0x00, 0x00, chk] →
    s.rem = 0
    ∧ (verify [] chk = true ↔ chk = 0xFF)
    ∧ (chk = 0xFF → exec .parse s = .next { s with
        data := []
        responses := s.responses ++ [{ status := .ok, value := 0, out := [] }] })
    ∧ (chk ≠ 0xFF → exec .parse s = .next { s with
        responses := s.responses ++ [{ status := .invalidChecksum, value := 0, out := [] }] })

/-- PARSE again gives the same response and changes nothing more (41_frame_codec.md R101, derived in the spec). -/
def Obligations.ParseIsRepeatable : Prop :=
  ∀ s t : State, exec .parse s = .next t →
    ∃ r, t.responses = s.responses ++ [r] ∧ exec .parse t = .next { t with responses := t.responses ++ [r] }

/-- The first accumulated byte never decides what PARSE does (41_frame_codec.md R98, decision D15). -/
def Obligations.StartByteIsNeverChecked : Prop :=
  ∀ (s t : State) (b b' : Byte) (rest : List Byte), s.acc = b :: rest → exec .parse s = .next t →
    exec .parse { s with acc := b' :: rest } = .next { t with acc := b' :: rest }

/-- The frame of PARSE, whatever its outcome (20_memory.md R37): only `data` and the response are written, and `data` only with
status OK (R116, R118; decisions D6, D18). -/
def Obligations.ParseWritesOnlyData : Prop :=
  ∀ s t : State, exec .parse s = .next t →
    t = { s with data := t.data, responses := t.responses }
    ∧ (∀ a, t.memRead .acc a = s.memRead .acc a)
    ∧ ∃ r, t.responses = s.responses ++ [r]
        ∧ (r.status ≠ .ok → r.out = [] ∧ ∀ a, t.memRead .data a = s.memRead .data a)
        ∧ (r.status = .ok → ∀ a, t.memRead .data a = if a < r.value.toNat then s.memRead .acc (3 + a) else none)

/-- PUT (41_frame_codec.md R103, decision D4) while fewer than 65535 bytes are loaded: the byte is appended as it is, the new
length is answered, and no other byte changes. -/
def Obligations.PutAppendsOneByte : Prop :=
  ∀ (s : State) (b : Byte), s.dataLen < 65535 → ∃ (t : State) (v : Value), exec (.put b) s = .next t
    ∧ v.toNat = s.data.length + 1
    ∧ t = { s with
        data := s.data ++ [b]
        responses := s.responses ++ [{ status := .ok, value := v, out := [] }] }
    ∧ (∀ a, a ≠ s.dataLen → t.memRead .data a = s.memRead .data a)
    ∧ ∀ a, t.memRead .acc a = s.memRead .acc a

/-- PUT with 65535 bytes loaded drops the byte: DATA_FULL, value 65535, nothing written (60_exceptions.md R121; the
outcome is the spec's decision D7, log entry 8). -/
def Obligations.PutOnAFullPayloadIsRefused : Prop :=
  ∀ (s : State) (b : Byte), s.dataLen = 65535 →
    exec (.put b) s
      = .next { s with responses := s.responses ++ [{ status := .dataFull, value := 65535, out := [] }] }

/-- OUTPUT (41_frame_codec.md R108; decisions D3, D21): the bare start byte, then the two length bytes, the payload and the checksum,
stuffed as one sequence in escaped mode; answered with its exact length, which is one byte more for each special byte of the body in
escaped mode (30_encoding.md R54, derived in the spec); nothing written. -/
def Obligations.OutputIsTheWireFrame : Prop :=
  ∀ s : State, s.dataLen ≤ 65535 → ∃ (msb lsb chk : Byte) (v : Value) (w : List Byte),
    exec .output s = .next { s with responses := s.responses ++ [{ status := .ok, value := v, out := w }] }
    ∧ w = 0x7E :: (if s.escaped then escape ([msb, lsb] ++ s.data ++ [chk]) else [msb, lsb] ++ s.data ++ [chk])
    ∧ msb.toNat * 256 + lsb.toNat = s.data.length
    ∧ ((s.data.map BitVec.toNat).sum + chk.toNat) % 256 = 255
    ∧ v.toNat = w.length ∧ w.length ≤ 131075
    ∧ w.length = s.data.length + 4 + (if s.escaped then ([msb, lsb] ++ s.data ++ [chk]).countP isSpecial else 0)

/-! ### Checksum and escape primitives -/

/-- The checksum (40_primitives.md R70): 0xFF minus the sum modulo 256, its equal forms, its corner cases, independence of order, and
the document's examples. -/
def Obligations.ChecksumIsTheComplementOfTheSum : Prop :=
  (∀ p : List Byte,
    (checksum p).toNat = 255 - (p.map BitVec.toNat).sum % 256
    ∧ checksum p = 0xFF - sum8 p ∧ checksum p = ~~~(sum8 p) ∧ checksum p = sum8 p ^^^ 0xFF
    ∧ (checksum p = 0x00 ↔ sum8 p = 0xFF)
    ∧ ∀ q : List Byte, p.Perm q → checksum q = checksum p)
  ∧ checksum [] = 0xFF ∧ checksum [0x00] = 0xFF ∧ checksum [0x36] = 0xC9
  ∧ checksum (List.replicate 5 0x01) = 0xFA

/-- Verification (40_primitives.md R71): the sum with the candidate is 0xFF modulo 256, exactly the checksum verifies, and the document's
example does not. -/
def Obligations.VerifyAcceptsExactlyTheChecksum : Prop :=
  (∀ (p : List Byte) (chk : Byte),
    (verify p chk = true ↔ ((p.map BitVec.toNat).sum + chk.toNat) % 256 = 255)
    ∧ (verify p chk = true ↔ chk = checksum p))
  ∧ (∀ chk : Byte, verify [] chk = true ↔ chk = 0xFF)
  ∧ verify [0x00] 0xF6 = false

/-- The running sum (40_primitives.md R69, R72 K4, derived in the spec): one byte at a time or in any grouping, it is the natural-number sum
modulo 256. -/
def Obligations.RunningSumIsTheSumModulo256 : Prop :=
  (∀ (p : List Byte) (b : Byte), sum8 (p ++ [b]) = add8 (sum8 p) b)
  ∧ (∀ p : List Byte, (sum8 p).toNat = (p.map BitVec.toNat).sum % 256)
  ∧ ∀ p q : List Byte, checksum (p ++ q) = 0xFF - add8 (sum8 p) (sum8 q)

/-- A single changed byte, of the payload or the checksum, is always detected (R72 K5, derived in the spec). -/
def Obligations.SingleChangeIsDetected : Prop :=
  (∀ (p q : List Byte) (b b' chk : Byte), b' ≠ b → verify (p ++ b :: q) chk = true →
    verify (p ++ b' :: q) chk = false)
  ∧ ∀ (p : List Byte) (chk chk' : Byte), chk' ≠ chk → verify p chk = true → verify p chk' = false

/-- The special bytes and the escape of one byte (40_primitives.md R73, R74). -/
def Obligations.SpecialBytesAndTheirPairs : Prop :=
  (∀ b : Byte, isSpecial b = true ↔ b = 0x7E ∨ b = 0x7D ∨ b = 0x11 ∨ b = 0x13)
  ∧ (∀ b : Byte, escByte b = if isSpecial b then [0x7D, b ^^^ 0x20] else [b])
  ∧ escByte 0x7E = [0x7D, 0x5E] ∧ escByte 0x7D = [0x7D, 0x5D]
  ∧ escByte 0x11 = [0x7D, 0x31] ∧ escByte 0x13 = [0x7D, 0x33]
  ∧ ∀ (b : Byte) (i : Nat), i < 8 → (b ^^^ 0x20).getLsbD i = if i = 5 then !b.getLsbD i else b.getLsbD i

/-- Escaping a sequence (40_primitives.md R75): byte by byte in order, one byte longer for each special
byte; OUTPUT applies it to the body and leaves START outside. -/
def Obligations.EscapeIsByteByByte : Prop :=
  escape [] = []
  ∧ (∀ (x : List Byte) (b : Byte), escape (x ++ [b]) = escape x ++ escByte b)
  ∧ (∀ x : List Byte, (escape x).length = x.length + x.countP isSpecial
      ∧ x.length ≤ (escape x).length ∧ (escape x).length ≤ 2 * x.length)
  ∧ (∀ p : List Byte, frameBytes true p = 0x7E :: escape (frameBody p))
  ∧ escape [0x7E] = [0x7D, 0x5E]

/-- One step of unescaping (40_primitives.md R76): the pending test comes first; it is FILL's treatment of a byte in escaped mode. -/
def Obligations.UnescapeStepIsFillInEscapedMode : Prop :=
  (∀ b : Byte, unescStep true b = (false, some (b ^^^ 0x20)))
  ∧ unescStep false 0x7D = (true, none)
  ∧ (∀ b : Byte, b ≠ 0x7D → unescStep false b = (false, some b))
  ∧ ∀ (s : State) (b : Byte), s.escaped = true → s.rem ≠ 0 → ∃ t, exec (.fill b) s = .next t
      ∧ t.escPending = (unescStep s.escPending b).1
      ∧ t.acc = s.acc ++ (unescStep s.escPending b).2.toList

/-- Unescaping undoes escaping, and escaping is injective (40_primitives.md R78 E1, E5, derived in the spec). -/
def Obligations.UnescapeUndoesEscape : Prop :=
  (∀ x : List Byte, unescape (escape x) = (x, false))
  ∧ ∀ x y : List Byte, escape x = escape y → x = y

/-- Escaping and unescaping in pieces, and what an escaped sequence holds (R78 E2, E3, E4; E2 is the document's, on the images of
escape; E3 and E4 are derived in the spec): no 0x7E, 0x11 or 0x13, and each 0x7D in it is the first byte of the pair of a special
byte, with whole escapes before and after the pair. -/
def Obligations.EscapeAndUnescapeInPieces : Prop :=
  (∀ x y : List Byte, escape (x ++ y) = escape x ++ escape y)
  ∧ (∀ x y a : List Byte, unescape x = (a, false) →
      unescape (x ++ y) = (a ++ (unescape y).1, (unescape y).2))
  ∧ (∀ x z : List Byte, x = escape z → escape (unescape x).1 = x)
  ∧ (∀ x : List Byte, ∀ b ∈ escape x, b ≠ 0x7E ∧ b ≠ 0x11 ∧ b ≠ 0x13)
  ∧ ∀ x u v : List Byte, escape x = u ++ 0x7D :: v →
      ∃ (y z : List Byte) (d : Byte), isSpecial d = true ∧ x = y ++ d :: z
        ∧ u = escape y ∧ v = (d ^^^ 0x20) :: escape z

/-- CSUM and VERIFY (40_primitives.md R80, R81; decisions D3, D20): the checksum of `data`; whether `c` verifies it, with status OK
either way; nothing written. -/
def Obligations.CsumAndVerifyAnswerFromData : Prop :=
  (∀ s : State, ∃ v : Value,
    exec .csum s = .next { s with responses := s.responses ++ [{ status := .ok, value := v, out := [] }] }
    ∧ v.toNat = 255 - (s.data.map BitVec.toNat).sum % 256)
  ∧ ∀ (s : State) (c : Byte), ∃ v : Value,
    exec (.verify c) s = .next { s with responses := s.responses ++ [{ status := .ok, value := v, out := [] }] }
    ∧ v = if ((s.data.map BitVec.toNat).sum + c.toNat) % 256 = 255 then 1 else 0

/-- ESC and UNESC (40_primitives.md R82, R83; decisions D3, D19, D20): `data` escaped, with the exact length; `data` unescaped,
with whether it ended on a dangling marker; nothing written. What unescaping gives is fixed on every sequence, byte by byte from no
marker pending (R77, decision D19): the byte after a marker is emitted XOR 0x20 whatever it is, a marker emits nothing and is
pending, any other byte is emitted as it is; with the spec's examples, one of them a dangling marker. -/
def Obligations.EscAndUnescAnswerFromData : Prop :=
  (∀ s : State, s.dataLen ≤ 65535 →
    (∃ v : Value,
      exec .esc s = .next { s with responses := s.responses ++ [{ status := .ok, value := v, out := escape s.data }] }
      ∧ v.toNat = s.data.length + s.data.countP isSpecial)
    ∧ ∃ v : Value,
      exec .unesc s = .next { s with
        responses := s.responses ++ [{ status := .ok, value := v, out := (unescape s.data).1 }] }
      ∧ v = if (unescape s.data).2 then 1 else 0)
  ∧ unescape [] = ([], false)
  ∧ (∀ (x : List Byte) (b : Byte),
      ((unescape x).2 = true → unescape (x ++ [b]) = ((unescape x).1 ++ [b ^^^ 0x20], false))
      ∧ ((unescape x).2 = false → b = 0x7D → unescape (x ++ [b]) = ((unescape x).1, true))
      ∧ ((unescape x).2 = false → b ≠ 0x7D → unescape (x ++ [b]) = ((unescape x).1 ++ [b], false)))
  ∧ unescape [0x7D, 0x23] = ([0x03], false) ∧ unescape [0x7D] = ([], true)
  ∧ unescape [0x7D, 0x7D, 0x41] = ([0x5D, 0x41], false)

/-- The four primitive operations answer the same in any two states with the same `data` (40_primitives.md R84, decision D20). -/
def Obligations.PrimitivesSeeOnlyData : Prop :=
  ∀ (i : Instr) (s s' t t' : State),
    (i = .csum ∨ (∃ c, i = .verify c) ∨ i = .esc ∨ i = .unesc) → s.data = s'.data →
    exec i s = .next t → exec i s' = .next t' → t.responses.getLast? = t'.responses.getLast?

/-! ### The wire rows -/

/-- WIRE.START on an incomplete frame: 0x7E is data at any position (30_encoding.md R61, 41_frame_codec.md R97; the response is
decision D3; that the row is the byte being fed is log entry 4). In the state `escaped = 0`, `esc_pending = 1`, which R27 V1 shuts
out of every run, the byte stored is the model's choice: the letter of R96, which tests the pending flag before the mode (DEDUCED,
log entry 14). -/
def Obligations.WireStartIsStoredAsData : Prop :=
  ∀ s : State, s.rem ≠ 0 → ∃ (t : State) (v : Value), exec .wireStart s = .next t
    ∧ v.toNat = t.rem
    ∧ t = { s with
        escPending := false
        acc := s.acc ++ [if s.escPending then 0x5E else 0x7E]
        responses := s.responses ++ [{ status := .ok, value := v, out := [] }] }

/-- WIRE.MARKER on an incomplete frame (R53; the response is R96 and decision D3; that the row is the byte being fed is log entry 4):
consumed in escaped mode with no marker pending, otherwise data. In the state `escaped = 0`, `esc_pending = 1`, which R27 V1 shuts
out of every run and for which R53 has no row, the byte stored is the model's choice: the letter of R96, which tests the pending
flag before the mode (DEDUCED, log entry 14). -/
def Obligations.WireMarkerIsConsumedOrStored : Prop :=
  ∀ s : State, s.rem ≠ 0 → ∃ (t : State) (v : Value), exec .wireMarker s = .next t
    ∧ v.toNat = t.rem
    ∧ t = { s with
        escPending := s.escaped && !s.escPending
        acc := s.acc ++ (if s.escPending then [0x5D] else if s.escaped then [] else [0x7D])
        responses := s.responses ++ [{ status := .ok, value := v, out := [] }] }

/-- An escape pair received on an incomplete frame in escaped mode with no marker pending stores the one byte it stands for (R52,
R53; that a row is its bytes being fed, with one response each, is log entries 4 and 5). -/
def Obligations.EscapePairIsStoredAsOneByte : Prop :=
  ∀ (i : Instr) (b : Byte),
    ((∃ x, i = .wirePair x ∧ b = x ^^^ 0x20) ∨ (i = .wirePair7E ∧ b = 0x7E) ∨ (i = .wirePair7D ∧ b = 0x7D)
      ∨ (i = .wirePair11 ∧ b = 0x11) ∨ (i = .wirePair13 ∧ b = 0x13)) →
    ∀ s : State, s.escaped = true → s.escPending = false → s.rem ≠ 0 →
      ∃ (t : State) (v v' : Value), exec i s = .next t
        ∧ v.toNat = s.rem ∧ v'.toNat = t.rem
        ∧ t = { s with
            acc := s.acc ++ [b]
            responses := s.responses
              ++ [{ status := .ok, value := v, out := [] }, { status := .ok, value := v', out := [] }] }

/-- In every state and mode, a wire row is its bytes fed in order (R64 FEED; log entries 4 and 5). -/
def Obligations.WireRowsAreTheirBytesFed : Prop :=
  ∀ (i : Instr) (bytes : List Byte), encode i = .wire bytes →
    ∀ s : State, ∃ t, exec i s = .next t ∧ execAll (bytes.map .fill) s = .next t

/-- The frame of a wire row: only `acc` at its count (and one above, for a pair), the pending flag and the responses may
change (20_memory.md R37; log entry 4). -/
def Obligations.WireRowFrame : Prop :=
  ∀ (i : Instr) (bytes : List Byte) (s t : State), encode i = .wire bytes → exec i s = .next t →
    t = { s with acc := t.acc, escPending := t.escPending, responses := t.responses }
    ∧ (∀ a, (a < s.accCnt ∨ s.accCnt + bytes.length ≤ a) → t.memRead .acc a = s.memRead .acc a)
    ∧ ∀ a, t.memRead .data a = s.memRead .data a

/-! ### The whole machine -/

/-- The reset state meets V1 to V4 of 10_state.md R27. -/
def Obligations.ResetMeetsTheInvariants : Prop := State.reset.Inv

/-- Every step keeps V1 to V4 of R27 (derived in the spec), whatever is presented. -/
def Obligations.StepKeepsTheInvariants : Prop :=
  ∀ s t : State, s.Inv → step s = .next t → t.Inv

/-- The invariants keep both buffers within their capacities and the remaining count within 65536 (R20, R27 V2 and V3, 20_memory.md R31). -/
def Obligations.InvariantsBoundTheBuffers : Prop :=
  ∀ s : State, s.Inv → s.accCnt ≤ 65539 ∧ s.dataLen ≤ 65535 ∧ s.rem ≤ 65536 ∧ Memory.wf s = true

/-- V5 of R27 (derived in the spec): but for NEW and reset, a step only appends to `acc`, and keeps the declared length. -/
def Obligations.StoredBytesAreNeverRewritten : Prop :=
  ∀ s t : State, step s = .next t →
    s.inputs.head? ≠ some .reset → s.inputs.head? ≠ some (.command 0x100) → s.inputs.head? ≠ some (.command 0x101) →
    (∀ a, a < s.accCnt → t.memRead .acc a = s.memRead .acc a)
    ∧ s.accCnt ≤ t.accCnt
    ∧ ∀ len, s.declaredLength = some len → t.declaredLength = some len

/-- The six operations that only answer (R37): nothing is written but one response with status OK. -/
def Obligations.QueriesWriteNothing : Prop :=
  ∀ (i : Instr) (s t : State),
    (i = .rem ∨ i = .output ∨ i = .csum ∨ (∃ c, i = .verify c) ∨ i = .esc ∨ i = .unesc) → exec i s = .next t →
    (∃ r, r.status = .ok ∧ t = { s with responses := s.responses ++ [r] })
    ∧ ∀ sp a, t.memRead sp a = s.memRead sp a

/-- Every operation of the command port answers exactly one response, and one whose status is not OK has written nothing else and carries
no bytes (60_exceptions.md R115, R116, R118; decisions D2, D3, D5 to D7, D18). -/
def Obligations.RefusalsAndErrorsWriteNothing : Prop :=
  ∀ (w : CommandWord) (rest : List Input) (s : State), s.inputs = .command w :: rest →
    ∃ (t : State) (r : Response), step s = .next t
      ∧ t.responses = s.responses ++ [r]
      ∧ (r.status ≠ .ok → r.out = [] ∧ t = { s with inputs := rest, responses := s.responses ++ [r] })

/-- Which operation raises each status, and when (60_exceptions.md R115, R116, R125; decisions D5 to D7, D12): a reserved word is
decided on the word alone, an operation's own refusal on the state before, INVALID_CHECKSUM only on a complete frame. -/
def Obligations.EachStatusHasOneSource : Prop :=
  ∀ (w : CommandWord) (rest : List Input) (s t : State) (r : Response),
    s.inputs = .command w :: rest → step s = .next t → t.responses = s.responses ++ [r] →
    (r.status = .illegalCmd ↔ IsReservedWord w)
    ∧ (r.status = .notReady ↔ decodeCommand w = .ok .parse ∧ s.rem ≠ 0)
    ∧ (r.status = .invalidChecksum ↔ decodeCommand w = .ok .parse ∧ s.rem = 0
        ∧ ∃ f, s.received = some f ∧ verify f.payload f.checksum = false)
    ∧ (r.status = .overrun ↔ (∃ b, decodeCommand w = .ok (.fill b)) ∧ s.rem = 0)
    ∧ (r.status = .dataFull ↔ (∃ b, decodeCommand w = .ok (.put b)) ∧ s.dataLen = 65535)

/-- The status codes and the packed form of a response (30_encoding.md R58, R59; decision D3). -/
def Obligations.StatusCodesAndPackedResponse : Prop :=
  Status.ok.code = 0x0 ∧ Status.invalidChecksum.code = 0x1 ∧ Status.notReady.code = 0x2 ∧ Status.overrun.code = 0x3
  ∧ Status.dataFull.code = 0x4 ∧ Status.illegalCmd.code = 0x5
  ∧ ∀ r : Response, r.packed.extractLsb' 18 4 = r.status.code ∧ r.packed.extractLsb' 0 18 = r.value

/-- The phase moves only by FILL (and the wire rows, which are FILLs, log entry 4), NEW and reset, and by FILL at most one position
(41_frame_codec.md R94, derived in the spec): NEW and the reset event lead to AwaitingStart, a consumed marker and a refused byte
leave the phase, a stored byte moves it from AccumulatingLength never directly to Complete, and to Complete exactly when it is the
checksum byte. -/
def Obligations.PhaseTransitions : Prop :=
  (∀ (i : Instr) (s t : State), (∀ e, i ≠ .new e) → (∀ b, i ≠ .fill b) → (∀ bytes, encode i ≠ .wire bytes) →
    exec i s = .next t → t.phase = s.phase)
  ∧ (∀ (e : Bool) (s t : State), exec (.new e) s = .next t → t.phase = .awaitingStart)
  ∧ (∀ (s : State) (rest : List Input), s.inputs = .reset :: rest →
      ∃ t, step s = .next t ∧ t.phase = .awaitingStart)
  ∧ (∀ s t : State, step s = .next t →
      (s.inputs = [] ∨ s.inputs.head? = some (.wire []) ∨ ∃ w, IsReservedWord w ∧ s.inputs.head? = some (.command w)) →
      t.phase = s.phase)
  ∧ ∀ (b : Byte) (s t : State), exec (.fill b) s = .next t →
    (t.accCnt = s.accCnt → t.phase = s.phase)
    ∧ (t.accCnt ≠ s.accCnt → t.accCnt = s.accCnt + 1
      ∧ ((s.accCnt = 0 ∧ s.phase = .awaitingStart ∧ t.phase = .accumulatingLength)
        ∨ (s.accCnt = 1 ∧ s.phase = .accumulatingLength ∧ t.phase = .accumulatingLength)
        ∨ (s.accCnt = 2 ∧ s.phase = .accumulatingLength ∧ t.phase = .accumulatingPayload)
        ∨ (s.rem ≠ 1 ∧ s.phase = .accumulatingPayload ∧ t.phase = .accumulatingPayload)
        ∨ (s.rem = 1 ∧ s.phase = .accumulatingPayload ∧ t.phase = .complete)))

/-- The round trip (41_frame_codec.md R110, derived in the spec): for each mode and each payload of up to 65535 bytes, what NEW, the
PUTs and OUTPUT answer is, fed to a fresh frame of the same mode, accepted byte for byte, complete with its last byte and not
before, and parsed to the same payload. -/
def Obligations.FrameRoundTrip : Prop :=
  ∀ (e : Bool) (p : List Byte) (s : State), p.length ≤ 65535 →
    ∃ (t u v : State) (w : List Byte) (n : Value),
      execAll (.new e :: p.map .put ++ [.output]) s = .next t
      ∧ t.responses.getLast? = some { status := .ok, value := n, out := w }
      ∧ execAll (.new e :: w.map .fill) t = .next u
      ∧ (∀ r ∈ u.responses.drop t.responses.length, r.status = .ok)
      ∧ u.rem = 0 ∧ u.escPending = false
      ∧ (∀ k, k < w.length → ∃ u', execAll (.new e :: (w.take k).map .fill) t = .next u' ∧ u'.rem ≠ 0)
      ∧ exec .parse u = .next v ∧ v.data = p
      ∧ v.responses = u.responses ++ [{ status := .ok, value := BitVec.ofNat 18 p.length, out := p }]
end

