-- ==== Sys2Proof/Laws/Codec.lean ====
section
/-! SUPPORT. Laws of the pure byte functions that the state's laws rest on. -/

namespace Sys2Proof.Machine

/-- What a wire byte can do: after a marker, as a marker, or as itself (30_encoding.md R53). -/
theorem receive_cases (escaped pending : Bool) (b : Byte) :
    (pending = true ∧ receive escaped pending b = (false, some (b ^^^ 0x20)))
    ∨ (pending = false ∧ escaped = true ∧ b = 0x7D ∧ receive escaped pending b = (true, none))
    ∨ (pending = false ∧ (escaped = false ∨ b ≠ 0x7D) ∧ receive escaped pending b = (false, some b)) := by
  cases pending with
  | true => exact .inl ⟨rfl, rfl⟩
  | false =>
    by_cases h : escaped = true ∧ b = 0x7D
    · exact .inr (.inl ⟨rfl, h.1, h.2, by simp [receive, Config.marker, h.1, h.2]⟩)
    · refine .inr (.inr ⟨rfl, ?_, ?_⟩)
      · cases escaped <;> simp_all
      · cases escaped <;> simp_all [receive, Config.marker]

/-- In escaped mode the receiver's table is `unesc_step` (40_primitives.md R76). -/
theorem receive_escaped (pending : Bool) (b : Byte) : receive true pending b = unescStep pending b := by
  simp [receive, unescStep]

/-- Two length bytes never exceed 16 bits (40_primitives.md R79). -/
theorem lengthOfBytes_le (msb lsb : Byte) : lengthOfBytes msb lsb ≤ 65535 := by
  have h1 := msb.isLt
  have h2 := lsb.isLt
  simp only [lengthOfBytes]
  omega

/-- The two length bytes of a legal length give it back (30_encoding.md R57). -/
theorem lengthOfBytes_of_length {n : Nat} (h : n ≤ 65535) : lengthOfBytes (lenMsb n) (lenLsb n) = n := by
  have h1 : n &&& 255 = n % 256 := Nat.and_two_pow_sub_one_eq_mod n 8
  simp only [lengthOfBytes, lenMsb, lenLsb, BitVec.toNat_ofNat, Nat.shiftRight_eq_div_pow, h1]
  omega

/-- XOR with 0x20 undoes itself (40_primitives.md R78 E1). -/
theorem xor_escXor_twice (b : Byte) : (b ^^^ 0x20) ^^^ 0x20 = b := by
  simp

/-- Unescaping in pieces: the second piece goes on from the flag the first one ends with (40_primitives.md R77). -/
theorem unescapeFrom_append (x y : List Byte) (p : Bool) :
    unescapeFrom p (x ++ y)
      = ((unescapeFrom p x).1 ++ (unescapeFrom (unescapeFrom p x).2 y).1, (unescapeFrom (unescapeFrom p x).2 y).2) := by
  induction x generalizing p with
  | nil => simp [unescapeFrom]
  | cons b x ih => simp [unescapeFrom, ih]

theorem escape_cons (b : Byte) (x : List Byte) : escape (b :: x) = escByte b ++ escape x := by
  simp [escape]

end Sys2Proof.Machine
end

