-- ==== Sys2Proof/Laws/State.lean ====
section
/-! SUPPORT. What each update of the state leaves in each field, and the small laws of the derived quantities. -/

namespace Sys2Proof.Machine

/-! Answering a response. -/

@[simp] theorem State.respond_escaped (s : State) (st : Status) (n : Nat) (o : List Byte) :
    (s.respond st n o).escaped = s.escaped := rfl
@[simp] theorem State.respond_escPending (s : State) (st : Status) (n : Nat) (o : List Byte) :
    (s.respond st n o).escPending = s.escPending := rfl
@[simp] theorem State.respond_acc (s : State) (st : Status) (n : Nat) (o : List Byte) :
    (s.respond st n o).acc = s.acc := rfl
@[simp] theorem State.respond_data (s : State) (st : Status) (n : Nat) (o : List Byte) :
    (s.respond st n o).data = s.data := rfl
@[simp] theorem State.respond_inputs (s : State) (st : Status) (n : Nat) (o : List Byte) :
    (s.respond st n o).inputs = s.inputs := rfl
@[simp] theorem State.respond_responses (s : State) (st : Status) (n : Nat) (o : List Byte) :
    (s.respond st n o).responses
      = s.responses ++ [{ status := st, value := BitVec.ofNat 18 n, out := o }] := rfl
@[simp] theorem State.respond_accCnt (s : State) (st : Status) (n : Nat) (o : List Byte) :
    (s.respond st n o).accCnt = s.accCnt := rfl
@[simp] theorem State.respond_dataLen (s : State) (st : Status) (n : Nat) (o : List Byte) :
    (s.respond st n o).dataLen = s.dataLen := rfl
@[simp] theorem State.respond_declaredLength (s : State) (st : Status) (n : Nat) (o : List Byte) :
    (s.respond st n o).declaredLength = s.declaredLength := rfl
@[simp] theorem State.respond_rem (s : State) (st : Status) (n : Nat) (o : List Byte) :
    (s.respond st n o).rem = s.rem := rfl
@[simp] theorem State.respond_phase (s : State) (st : Status) (n : Nat) (o : List Byte) :
    (s.respond st n o).phase = s.phase := rfl
@[simp] theorem State.respond_received (s : State) (st : Status) (n : Nat) (o : List Byte) :
    (s.respond st n o).received = s.received := rfl
@[simp] theorem State.respond_memRead (s : State) (st : Status) (n : Nat) (o : List Byte) (sp : Space) (a : Nat) :
    (s.respond st n o).memRead sp a = s.memRead sp a := by cases sp <;> rfl

/-- Raising a status is answering it with no bytes. -/
theorem State.raise_eq_respond (s : State) (st : Status) (n : Nat) : s.raise st n = s.respond st n [] := rfl

/-! A fresh frame. -/

@[simp] theorem State.fresh_escaped (s : State) (e : Bool) : (s.fresh e).escaped = e := rfl
@[simp] theorem State.fresh_escPending (s : State) (e : Bool) : (s.fresh e).escPending = false := rfl
@[simp] theorem State.fresh_acc (s : State) (e : Bool) : (s.fresh e).acc = [] := rfl
@[simp] theorem State.fresh_data (s : State) (e : Bool) : (s.fresh e).data = [] := rfl
@[simp] theorem State.fresh_inputs (s : State) (e : Bool) : (s.fresh e).inputs = s.inputs := rfl
@[simp] theorem State.fresh_responses (s : State) (e : Bool) : (s.fresh e).responses = s.responses := rfl
@[simp] theorem State.fresh_rem (s : State) (e : Bool) : (s.fresh e).rem = 3 := rfl

/-! Accepting a wire byte. -/

@[simp] theorem State.acceptByte_escaped (s : State) (b : Byte) : (s.acceptByte b).escaped = s.escaped := rfl
@[simp] theorem State.acceptByte_escPending (s : State) (b : Byte) :
    (s.acceptByte b).escPending = (receive s.escaped s.escPending b).1 := rfl
@[simp] theorem State.acceptByte_acc (s : State) (b : Byte) :
    (s.acceptByte b).acc = s.acc ++ (receive s.escaped s.escPending b).2.toList := rfl
@[simp] theorem State.acceptByte_data (s : State) (b : Byte) : (s.acceptByte b).data = s.data := rfl
@[simp] theorem State.acceptByte_inputs (s : State) (b : Byte) : (s.acceptByte b).inputs = s.inputs := rfl
@[simp] theorem State.acceptByte_responses (s : State) (b : Byte) : (s.acceptByte b).responses = s.responses := rfl

/-! Derived quantities. -/

@[simp] theorem State.memRead_acc (s : State) (a : Nat) : s.memRead .acc a = s.acc[a]? := rfl
@[simp] theorem State.memRead_data (s : State) (a : Nat) : s.memRead .data a = s.data[a]? := rfl

theorem State.rem_of_declaredLength {s : State} {len : Nat} (h : s.declaredLength = some len) :
    s.rem = (len + 1) - (s.accCnt - 3) := by
  simp [State.rem, h, Config.hdrLen]

theorem State.rem_of_header {s : State} (h : s.declaredLength = none) : s.rem = 3 - s.accCnt := by
  simp [State.rem, h, Config.hdrLen]

end Sys2Proof.Machine
end

