-- ==== Sys2Proof/Laws/Ops.lean ====
section
/-! SUPPORT. For each shared operation, and each meaning with more than one outcome, the lemma that says everything it can do. -/

namespace Sys2Proof.Machine

/-- The three shapes of the accumulator below and from the third byte. -/
theorem State.declaredLength_cases (s : State) :
    (s.declaredLength = none ∧ s.acc.length < 3)
    ∨ ∃ start msb lsb body, s.acc = start :: msb :: lsb :: body
        ∧ s.declaredLength = some (lengthOfBytes msb lsb) := by
  unfold State.declaredLength
  rcases h : s.acc with _ | ⟨a, _ | ⟨b, _ | ⟨c, d⟩⟩⟩ <;> simp

theorem State.declaredLength_le {s : State} {len : Nat} (h : s.declaredLength = some len) : len ≤ 65535 := by
  obtain ⟨h', -⟩ | ⟨_, msb, lsb, _, -, h'⟩ := s.declaredLength_cases
  · simp [h'] at h
  · rw [h'] at h
    cases h
    exact lengthOfBytes_le msb lsb

theorem State.three_le_of_declaredLength {s : State} {len : Nat} (h : s.declaredLength = some len) :
    3 ≤ s.acc.length := by
  obtain ⟨h', -⟩ | ⟨_, _, _, _, h', -⟩ := s.declaredLength_cases
  · simp [h'] at h
  · simp [h']

/-- Appending to the accumulator keeps a declared length. -/
theorem State.declaredLength_append {s t : State} {len : Nat} {more : List Byte} (ht : t.acc = s.acc ++ more)
    (h : s.declaredLength = some len) : t.declaredLength = some len := by
  obtain ⟨h', -⟩ | ⟨a, m, l, body, hacc, h'⟩ := s.declaredLength_cases
  · simp [h'] at h
  · rw [h'] at h
    cases h
    simp [State.declaredLength, ht, hacc]

/-- The remaining count is within the 17 bits of R20 in every state. -/
theorem State.rem_le (s : State) : s.rem ≤ 65536 := by
  rcases h : s.declaredLength with _ | len
  · rw [State.rem_of_header h]; omega
  · rw [State.rem_of_declaredLength h]
    have := State.declaredLength_le h
    omega

/-- A complete frame is one the accumulator holds whole (41_frame_codec.md R100). -/
theorem State.received_of_rem_zero {s : State} (h : s.rem = 0) :
    ∃ len chk, s.declaredLength = some len ∧ s.acc[3 + len]? = some chk
      ∧ s.received = some { length := len, payload := (s.acc.drop 3).take len, checksum := chk } := by
  rcases hl : s.declaredLength with _ | len
  · rw [State.rem_of_header hl] at h
    obtain ⟨-, h'⟩ | ⟨_, _, _, _, -, h'⟩ := s.declaredLength_cases
    · simp only [State.accCnt] at h; omega
    · simp [h'] at hl
  · rw [State.rem_of_declaredLength hl] at h
    have h3 := State.three_le_of_declaredLength hl
    simp only [State.accCnt] at h
    have hlt : 3 + len < s.acc.length := by omega
    exact ⟨len, s.acc[3 + len], rfl, by simp [hlt], by simp [State.received, hl, hlt]⟩

theorem State.received_of_rem_ne_zero {s : State} (h : s.rem ≠ 0) : s.received = none := by
  rcases hl : s.declaredLength with _ | len
  · simp [State.received, hl]
  · rw [State.rem_of_declaredLength hl] at h
    simp only [State.accCnt] at h
    have hge : s.acc.length ≤ 3 + len := by omega
    simp [State.received, hl, List.getElem?_eq_none hge]

/-- FILL's whole effect (41_frame_codec.md R96): refused on a complete frame, else the byte is accepted. -/
theorem State.feed_cases (s : State) (b : Byte) :
    (s.rem = 0 ∧ s.feed b = s.raise .overrun 0)
    ∨ (s.rem ≠ 0 ∧ s.feed b = (s.acceptByte b).respond .ok (s.acceptByte b).rem []) := by
  by_cases h : s.rem = 0 <;> simp [State.feed, h]

@[simp] theorem State.feed_escaped (s : State) (b : Byte) : (s.feed b).escaped = s.escaped := by
  obtain ⟨-, h⟩ | ⟨-, h⟩ := s.feed_cases b <;> simp [h, State.raise]
@[simp] theorem State.feed_data (s : State) (b : Byte) : (s.feed b).data = s.data := by
  obtain ⟨-, h⟩ | ⟨-, h⟩ := s.feed_cases b <;> simp [h, State.raise]
@[simp] theorem State.feed_inputs (s : State) (b : Byte) : (s.feed b).inputs = s.inputs := by
  obtain ⟨-, h⟩ | ⟨-, h⟩ := s.feed_cases b <;> simp [h, State.raise]

/-- Feeding a byte appends at most one byte. -/
theorem State.feed_acc (s : State) (b : Byte) :
    ∃ more, (s.feed b).acc = s.acc ++ more ∧ more.length ≤ 1 := by
  obtain ⟨-, h⟩ | ⟨-, h⟩ := s.feed_cases b
  · exact ⟨[], by simp [h, State.raise], by simp⟩
  · refine ⟨(receive s.escaped s.escPending b).2.toList, by simp [h], ?_⟩
    obtain ⟨-, h'⟩ | ⟨-, -, -, h'⟩ | ⟨-, -, h'⟩ := receive_cases s.escaped s.escPending b <;> simp [h']

/-- PARSE's three outcomes (41_frame_codec.md R100, 60_exceptions.md R125). -/
theorem execParse_cases (s : State) :
    (s.rem ≠ 0 ∧ execParse s = .next (s.raise .notReady s.rem))
    ∨ ∃ len chk, s.rem = 0 ∧ s.declaredLength = some len ∧ s.acc[3 + len]? = some chk
        ∧ ((verify ((s.acc.drop 3).take len) chk = true
            ∧ execParse s = .next (({ s with data := (s.acc.drop 3).take len } : State).respond .ok len
                ((s.acc.drop 3).take len)))
          ∨ (verify ((s.acc.drop 3).take len) chk = false
            ∧ execParse s = .next (s.raise .invalidChecksum len))) := by
  by_cases h : s.rem = 0
  · obtain ⟨len, chk, hl, hc, hr⟩ := State.received_of_rem_zero h
    refine .inr ⟨len, chk, h, hl, hc, ?_⟩
    cases hv : verify ((s.acc.drop 3).take len) chk
    · exact .inr ⟨rfl, by simp [execParse, hr, hv]⟩
    · exact .inl ⟨rfl, by simp [execParse, hr, hv]⟩
  · exact .inl ⟨h, by simp [execParse, State.received_of_rem_ne_zero h]⟩

/-- PUT's two outcomes (41_frame_codec.md R103). -/
theorem execPut_cases (s : State) (b : Byte) :
    (s.data.length = 65535 ∧ execPut b s = .next (s.raise .dataFull 65535))
    ∨ (s.data.length ≠ 65535
      ∧ execPut b s = .next (({ s with data := s.data ++ [b] } : State).respond .ok (s.data.length + 1) [])) := by
  by_cases h : s.data.length = 65535 <;> simp [execPut, State.dataLen, Config.maxPayload, h]

/-! What each arm of exec calls. -/

theorem exec_new (e : Bool) (s : State) : exec (.new e) s = .next ((s.fresh e).respond .ok 0 []) := rfl
theorem exec_fill (b : Byte) (s : State) : exec (.fill b) s = .next (s.feed b) := rfl
theorem exec_rem (s : State) : exec .rem s = .next (s.respond .ok s.rem []) := rfl
theorem exec_parse (s : State) : exec .parse s = execParse s := rfl
theorem exec_put (b : Byte) (s : State) : exec (.put b) s = execPut b s := rfl
theorem exec_output (s : State) : exec .output s
    = .next (s.respond .ok (frameBytes s.escaped s.data).length (frameBytes s.escaped s.data)) := rfl
theorem exec_csum (s : State) : exec .csum s = .next (s.respond .ok (checksum s.data).toNat []) := rfl
theorem exec_verify (c : Byte) (s : State) :
    exec (.verify c) s = .next (s.respond .ok (if verify s.data c then 1 else 0) []) := rfl
theorem exec_esc (s : State) : exec .esc s = .next (s.respond .ok (escape s.data).length (escape s.data)) := rfl
theorem exec_unesc (s : State) :
    exec .unesc s = .next (s.respond .ok (if (unescape s.data).2 then 1 else 0) (unescape s.data).1) := rfl
theorem exec_wireStart (s : State) : exec .wireStart s = .next (s.feed 0x7E) := rfl
theorem exec_wireMarker (s : State) : exec .wireMarker s = .next (s.feed 0x7D) := rfl
theorem exec_wirePair (x : Byte) (s : State) : exec (.wirePair x) s = .next ((s.feed 0x7D).feed x) := rfl
theorem exec_wirePair7E (s : State) : exec .wirePair7E s = .next ((s.feed 0x7D).feed 0x5E) := rfl
theorem exec_wirePair7D (s : State) : exec .wirePair7D s = .next ((s.feed 0x7D).feed 0x5D) := rfl
theorem exec_wirePair11 (s : State) : exec .wirePair11 s = .next ((s.feed 0x7D).feed 0x31) := rfl
theorem exec_wirePair13 (s : State) : exec .wirePair13 s = .next ((s.feed 0x7D).feed 0x33) := rfl

end Sys2Proof.Machine
end

