-- ==== Sys2Proof/Laws/Memory.lean ====
section
/-! SUPPORT. Both buffers stay within their capacities (log entry 1): at reset, and through every operation and step. -/

namespace Sys2Proof.Machine

theorem Memory.wf_iff (s : State) : Memory.wf s = true ↔ s.acc.length ≤ 65539 ∧ s.data.length ≤ 65535 := by
  rw [Memory.wf, Bool.and_eq_true, decide_eq_true_iff, decide_eq_true_iff]
  exact Iff.rfl

theorem Memory.reset_wf : Memory.wf State.reset = true := by decide

theorem Memory.respond_keeps_wf {s : State} (st : Status) (n : Nat) (o : List Byte) (h : Memory.wf s = true) :
    Memory.wf (s.respond st n o) = true := h

theorem Memory.fresh_wf (s : State) (e : Bool) : Memory.wf (s.fresh e) = true := by
  simp [Memory.wf_iff]

theorem Memory.feed_keeps_wf {s : State} (b : Byte) (h : Memory.wf s = true) : Memory.wf (s.feed b) = true := by
  obtain ⟨-, h'⟩ | ⟨hrem, h'⟩ := s.feed_cases b
  · rw [h']; exact h
  · rw [Memory.wf_iff] at h ⊢
    obtain ⟨more, hm, h1⟩ := s.feed_acc b
    rw [hm, State.feed_data, List.length_append]
    refine ⟨?_, h.2⟩
    rcases hl : s.declaredLength with _ | len
    · rw [State.rem_of_header hl] at hrem
      simp only [State.accCnt] at hrem
      omega
    · rw [State.rem_of_declaredLength hl] at hrem
      simp only [State.accCnt] at hrem
      have := State.declaredLength_le hl
      omega

theorem Memory.execParse_keeps_wf {s t : State} (h : Memory.wf s = true) (ht : execParse s = .next t) :
    Memory.wf t = true := by
  obtain ⟨-, h'⟩ | ⟨len, chk, -, hl, -, ⟨-, h'⟩ | ⟨-, h'⟩⟩ := execParse_cases s <;> rw [h'] at ht <;> cases ht
  · exact h
  · rw [Memory.wf_iff] at h ⊢
    have := State.declaredLength_le hl
    simp only [State.respond_acc, State.respond_data, List.length_take]
    omega
  · exact h

theorem Memory.execPut_keeps_wf {s t : State} {b : Byte} (h : Memory.wf s = true) (ht : execPut b s = .next t) :
    Memory.wf t = true := by
  obtain ⟨-, h'⟩ | ⟨hne, h'⟩ := execPut_cases s b <;> rw [h'] at ht <;> cases ht
  · exact h
  · rw [Memory.wf_iff] at h ⊢
    simp only [State.respond_acc, State.respond_data, List.length_append, List.length_singleton]
    omega

theorem Memory.exec_keeps_wf {i : Instr} {s t : State} (h : Memory.wf s = true) (ht : exec i s = .next t) :
    Memory.wf t = true := by
  cases i with
  | new e => cases ht; exact Memory.fresh_wf s e
  | fill b => cases ht; exact Memory.feed_keeps_wf _ h
  | rem | output | csum | verify _ | esc | unesc => cases ht; exact h
  | parse => exact Memory.execParse_keeps_wf h ht
  | put b => exact Memory.execPut_keeps_wf h ht
  | wireStart | wireMarker => cases ht; exact Memory.feed_keeps_wf _ h
  | wirePair _ | wirePair7E | wirePair7D | wirePair11 | wirePair13 =>
    cases ht; exact Memory.feed_keeps_wf _ (Memory.feed_keeps_wf _ h)

/-- What a step can do: run an instruction from the state with the input taken, or one of the four ways to run none. -/
theorem step_cases (s : State) :
    (s.inputs = [] ∧ step s = .next s)
    ∨ (∃ rest, s.inputs = .reset :: rest ∧ step s = .next (({ s with inputs := rest } : State).fresh false))
    ∨ (∃ w rest r, s.inputs = .command w :: rest ∧ decodeCommand w = .error r
        ∧ step s = .next (({ s with inputs := rest } : State).raise .illegalCmd 0))
    ∨ (∃ rest, s.inputs = .wire [] :: rest ∧ step s = .next { s with inputs := rest })
    ∨ (∃ w rest i, s.inputs = .command w :: rest ∧ decodeCommand w = .ok i
        ∧ step s = exec i { s with inputs := rest })
    ∨ (∃ bytes rest i left, s.inputs = .wire bytes :: rest ∧ decodeWire bytes = some (i, left)
        ∧ step s = exec i { s with inputs := remainingInputs left rest }) := by
  rcases hi : s.inputs with _ | ⟨_ | bytes | _, rest⟩
  · exact .inl ⟨rfl, by simp [step, fetch, hi]⟩
  · rename_i w
    rcases hd : decodeCommand w with r | i
    · exact .inr (.inr (.inl ⟨w, rest, r, rfl, hd, by simp [step, fetch, hi, hd]⟩))
    · exact .inr (.inr (.inr (.inr (.inl ⟨w, rest, i, rfl, hd, by simp [step, fetch, hi, hd]⟩))))
  · rcases hd : decodeWire bytes with _ | ⟨i, left⟩
    · have hb : bytes = [] := by
        rcases bytes with _ | ⟨b, _ | ⟨x, r⟩⟩
        · rfl
        · simp [decodeWire] at hd
        · simp only [decodeWire] at hd; split at hd <;> simp at hd
      subst hb
      exact .inr (.inr (.inr (.inl ⟨rest, rfl, by simp [step, fetch, hi, hd]⟩)))
    · exact .inr (.inr (.inr (.inr (.inr ⟨bytes, rest, i, left, rfl, hd, by simp [step, fetch, hi, hd]⟩))))
  · exact .inr (.inl ⟨rest, rfl, by simp [step, fetch, hi, Config.escapedAtReset]⟩)

theorem Memory.step_keeps_wf {s t : State} (h : Memory.wf s = true) (ht : step s = .next t) : Memory.wf t = true := by
  obtain ⟨-, h'⟩ | ⟨rest, -, h'⟩ | ⟨w, rest, r, -, -, h'⟩ | ⟨rest, -, h'⟩ | ⟨w, rest, i, -, -, h'⟩
    | ⟨bytes, rest, i, left, -, -, h'⟩ := step_cases s <;> rw [h'] at ht
  · cases ht; exact h
  · cases ht; exact Memory.fresh_wf _ _
  · cases ht; exact h
  · cases ht; exact h
  · exact Memory.exec_keeps_wf (s := { s with inputs := rest }) h ht
  · exact Memory.exec_keeps_wf (s := { s with inputs := remainingInputs left rest }) h ht

end Sys2Proof.Machine
end

