-- ==== Sys2Proof/Laws/PerInstr.lean ====
section
/-! SUPPORT. Instruction by instruction: the encoding is the row of spec/opcode_table.json that stands for it. -/

namespace Sys2Proof.Laws.TableRow

/-- The match and the mask of an instruction's row, copied from spec/opcode_table.json. -/
def row : Instr → Nat × Nat
  | .new _ => (0x100, 0xFFE)
  | .fill _ => (0x200, 0xF00)
  | .rem => (0x300, 0xFFF)
  | .parse => (0x400, 0xFFF)
  | .put _ => (0x500, 0xF00)
  | .output => (0x600, 0xFFF)
  | .csum => (0x800, 0xFFF)
  | .verify _ => (0x900, 0xF00)
  | .esc => (0xA00, 0xFFF)
  | .unesc => (0xB00, 0xFFF)
  | .wireStart => (0x7E, 0xFF)
  | .wireMarker => (0x7D, 0xFF)
  | .wirePair _ => (0x7D00, 0xFF00)
  | .wirePair7E => (0x7D5E, 0xFFFF)
  | .wirePair7D => (0x7D5D, 0xFFFF)
  | .wirePair11 => (0x7D31, 0xFFFF)
  | .wirePair13 => (0x7D33, 0xFFFF)

/-- The number the table gives an encoding: the first wire byte is the most significant (log entry 6). -/
def number : Input → Nat
  | .command w => w.toNat
  | .wire bytes => bytes.foldl (fun n b => n * 256 + b.toNat) 0
  | .reset => 0

/-- The encoding of `i`, masked by its row's mask, is its row's match. -/
def Statement (i : Instr) : Prop := number (encode i) &&& (row i).2 = (row i).1

theorem new (e : Bool) : Statement (.new e) := by
  revert e; unfold Statement; decide
theorem fill (b : Byte) : Statement (.fill b) := by
  revert b; unfold Statement; decide
theorem rem : Statement .rem := by
  unfold Statement; decide
theorem parse : Statement .parse := by
  unfold Statement; decide
theorem put (b : Byte) : Statement (.put b) := by
  revert b; unfold Statement; decide
theorem output : Statement .output := by
  unfold Statement; decide
theorem csum : Statement .csum := by
  unfold Statement; decide
theorem verify (c : Byte) : Statement (.verify c) := by
  revert c; unfold Statement; decide
theorem esc : Statement .esc := by
  unfold Statement; decide
theorem unesc : Statement .unesc := by
  unfold Statement; decide
theorem wireStart : Statement .wireStart := by
  unfold Statement; decide
theorem wireMarker : Statement .wireMarker := by
  unfold Statement; decide
theorem wirePair (x : Byte) : Statement (.wirePair x) := by
  revert x; unfold Statement; decide
theorem wirePair7E : Statement .wirePair7E := by
  unfold Statement; decide
theorem wirePair7D : Statement .wirePair7D := by
  unfold Statement; decide
theorem wirePair11 : Statement .wirePair11 := by
  unfold Statement; decide
theorem wirePair13 : Statement .wirePair13 := by
  unfold Statement; decide

end Sys2Proof.Laws.TableRow
end

