-- ==== Sys2Proof/Tests/Slice0.lean ====
section
/-! SUPPORT. Tests of the model's own text. Expected values are copied from spec/95_test_vectors.md (its table or program is named), from
30_encoding.md's encodings or from opcode_table.json; then one witness for each statement that has hypotheses. -/

namespace Sys2Proof.Tests

open Sys2Proof.Machine

/-! ### Helpers -/

/-- A state with these four elements, nothing presented and nothing answered. -/
def st (escaped escPending : Bool) (acc data : List Byte) : State :=
  { State.reset with escaped := escaped, escPending := escPending, acc := acc, data := data }

/-- The next state, if there is one. -/
def nextOf : Host.Outcome State Fault Refusal → Option State
  | .next t => some t
  | .fault _ => none
  | .refused _ => none

/-- The last response and the four elements of the next state. -/
def result (o : Host.Outcome State Fault Refusal) :
    Option (Option Response × Bool × Bool × List Byte × List Byte) :=
  (nextOf o).map fun t => (t.responses.getLast?, t.escaped, t.escPending, t.acc, t.data)

/-- The last response alone. -/
def answer (o : Host.Outcome State Fault Refusal) : Option Response :=
  (nextOf o).bind fun t => t.responses.getLast?

/-! ### Well-formedness: each pair with a row of its own is refused under WIRE.PAIR -/

theorem test_wf_refuses_pair_of_7E : (Instr.wirePair 0x5E).wf = false := by decide
theorem test_wf_refuses_pair_of_7D : (Instr.wirePair 0x5D).wf = false := by decide
theorem test_wf_refuses_pair_of_11 : (Instr.wirePair 0x31).wf = false := by decide
theorem test_wf_refuses_pair_of_13 : (Instr.wirePair 0x33).wf = false := by decide
theorem test_wf_accepts_pair_23 : (Instr.wirePair 0x23).wf = true := by decide

/-! ### Decoding: words written out from 30_encoding.md R56 (op, then arg) and opcode_table.json -/

theorem test_decode_new : decodeCommand 0b000100000001 = .ok (.new true) := rfl
theorem test_decode_fill : decodeCommand 0b001001111110 = .ok (.fill 0x7E) := rfl
theorem test_decode_rem : decodeCommand 0b001100000000 = .ok .rem := rfl
theorem test_decode_parse : decodeCommand 0b010000000000 = .ok .parse := rfl
theorem test_decode_put : decodeCommand 0b010101000001 = .ok (.put 0x41) := rfl
theorem test_decode_output : decodeCommand 0b011000000000 = .ok .output := rfl
theorem test_decode_csum : decodeCommand 0b100000000000 = .ok .csum := rfl
theorem test_decode_verify : decodeCommand 0b100101011111 = .ok (.verify 0x5F) := rfl
theorem test_decode_esc : decodeCommand 0b101000000000 = .ok .esc := rfl
theorem test_decode_unesc : decodeCommand 0b101100000000 = .ok .unesc := rfl
theorem test_decode_wireStart : decodeTableWord 8 0b01111110 = some .wireStart := by decide
theorem test_decode_wireMarker : decodeTableWord 8 0b01111101 = some .wireMarker := by decide
theorem test_decode_wirePair : decodeTableWord 16 0b0111110100100011 = some (.wirePair 0x23) := by decide
theorem test_decode_wirePair7E : decodeTableWord 16 0b0111110101011110 = some .wirePair7E := by decide
theorem test_decode_wirePair7D : decodeTableWord 16 0b0111110101011101 = some .wirePair7D := by decide
theorem test_decode_wirePair11 : decodeTableWord 16 0b0111110100110001 = some .wirePair11 := by decide
theorem test_decode_wirePair13 : decodeTableWord 16 0b0111110100110011 = some .wirePair13 := by decide
/-- 95_test_vectors.md 2.7: reserved words of the three kinds of R60. -/
theorem test_decode_reserved :
    decodeCommand 0x000 = .error .opcode ∧ decodeCommand 0xD12 = .error .opcode ∧ decodeCommand 0xFFF = .error .opcode
    ∧ decodeCommand 0x6FF = .error .operand ∧ decodeCommand 0xB80 = .error .operand
    ∧ decodeCommand 0x102 = .error .newOperand ∧ decodeCommand 0x180 = .error .newOperand :=
  ⟨rfl, rfl, rfl, rfl, rfl, rfl, rfl⟩
/-- Two wire bytes that are no pair are not one instruction. -/
theorem test_decode_no_pair : decodeTableWord 16 0x4142 = none := by decide

/-! ### The operations -/

/-- 2.7, row NEW 1. -/
theorem test_new_clears : result (exec (.new true) (st false false [0x7E] [0x41]))
    = some (some ⟨.ok, 0, []⟩, true, false, [], []) := by decide
/-- 2.5: a marker in escaped mode. -/
theorem test_fill_marker : result (exec (.fill 0x7D) (st true false [0x7E, 0x00, 0x01] []))
    = some (some ⟨.ok, 2, []⟩, true, true, [0x7E, 0x00, 0x01], []) := by decide
/-- 2.5: marker after marker. -/
theorem test_fill_marker_after_marker : result (exec (.fill 0x7D) (st true true [0x7E, 0x00, 0x01] []))
    = some (some ⟨.ok, 1, []⟩, true, false, [0x7E, 0x00, 0x01, 0x5D], []) := by decide
/-- 2.5: L = 65535. -/
theorem test_rem_largest : answer (exec .rem (st false false [0x7E, 0xFF, 0xFF] [])) = some ⟨.ok, 65536, []⟩ := by decide
/-- 2.5: L = 0. -/
theorem test_rem_checksum_only : answer (exec .rem (st false false [0x7E, 0x00, 0x00] [])) = some ⟨.ok, 1, []⟩ := by decide
/-- 2.6: the sum wraps. -/
theorem test_parse_wraps : result (exec .parse (st false false [0x7E, 0x00, 0x02, 0x80, 0x80, 0xFF] [0xAA]))
    = some (some ⟨.ok, 2, [0x80, 0x80]⟩, false, false, [0x7E, 0x00, 0x02, 0x80, 0x80, 0xFF], [0x80, 0x80]) := by decide
/-- 2.6, and Part 1 S5: data is kept. -/
theorem test_parse_invalid : result (exec .parse (st false false [0x7E, 0x00, 0x01, 0x00, 0xF6] [0xAA]))
    = some (some ⟨.invalidChecksum, 1, []⟩, false, false, [0x7E, 0x00, 0x01, 0x00, 0xF6], [0xAA]) := by decide
/-- 2.7: a special byte is stored bare. -/
theorem test_put_bare : result (exec (.put 0x7E) (st true false [] []))
    = some (some ⟨.ok, 1, []⟩, true, false, [], [0x7E]) := by decide
/-- 2.4: escaped mode. -/
theorem test_output_escaped : answer (exec .output (st true false [] [0x7E, 0x11, 0x41]))
    = some ⟨.ok, 9, [0x7E, 0x00, 0x03, 0x7D, 0x5E, 0x7D, 0x31, 0x41, 0x2F]⟩ := by decide
/-- 2.4: a special length byte is stuffed. -/
theorem test_output_stuffs_length : (answer (exec .output (st true false [] (List.replicate 17 0x41)))).map
    (fun r => (r.value, r.out.take 5, r.out.getLast?)) = some (22, [0x7E, 0x00, 0x7D, 0x31, 0x41], some 0xAE) := by decide
/-- 2.1: the sum wraps. -/
theorem test_csum_wraps : answer (exec .csum (st true true [0x7E] [0xFF, 0xFF, 0x02])) = some ⟨.ok, 0xFF, []⟩ := by decide
/-- 2.1. -/
theorem test_verify_true : answer (exec (.verify 0xC9) (st false false [] [0x36])) = some ⟨.ok, 1, []⟩ := by decide
/-- 2.1: off by one. -/
theorem test_verify_false : answer (exec (.verify 0xC8) (st false false [] [0x36])) = some ⟨.ok, 0, []⟩ := by decide
/-- 2.2. -/
theorem test_esc_all : answer (exec .esc (st false false [] [0x7E, 0x7D, 0x11, 0x13, 0x00, 0x5E, 0x5D, 0x31, 0x33, 0xFF]))
    = some ⟨.ok, 14, [0x7D, 0x5E, 0x7D, 0x5D, 0x7D, 0x31, 0x7D, 0x33, 0x00, 0x5E, 0x5D, 0x31, 0x33, 0xFF]⟩ := by decide
/-- 2.3: a third 0x7D dangles. -/
theorem test_unesc_dangling : answer (exec .unesc (st false false [] [0x7D, 0x7D, 0x7D])) = some ⟨.ok, 1, [0x5D]⟩ := by decide
/-- 2.3: marker after marker is data. -/
theorem test_unesc_marker_after_marker : answer (exec .unesc (st false false [] [0x7D, 0x7D, 0x7D, 0x41]))
    = some ⟨.ok, 0, [0x5D, 0x61]⟩ := by decide
/-- 2.5, row FILL 0x7E in mid-frame. -/
theorem test_wireStart_is_data : result (exec .wireStart (st true false [0x7E, 0x00, 0x01] []))
    = some (some ⟨.ok, 1, []⟩, true, false, [0x7E, 0x00, 0x01, 0x7E], []) := by decide
/-- 2.5: in unescaped mode 0x7D is data. -/
theorem test_wireMarker_unescaped : result (exec .wireMarker (st false false [0x7E, 0x00, 0x01] []))
    = some (some ⟨.ok, 1, []⟩, false, false, [0x7E, 0x00, 0x01, 0x7D], []) := by decide
/-- 2.5, rows FILL 0x7D then FILL 0x23. -/
theorem test_wirePair_23 : result (exec (.wirePair 0x23) (st true false [0x7E, 0x00, 0x01] []))
    = some (some ⟨.ok, 1, []⟩, true, false, [0x7E, 0x00, 0x01, 0x03], []) := by decide
/-- 2.5: the pair that completes a frame. -/
theorem test_wirePair7E_completes : result (exec .wirePair7E (st true false [0x7E, 0x00, 0x01, 0x81] []))
    = some (some ⟨.ok, 0, []⟩, true, false, [0x7E, 0x00, 0x01, 0x81, 0x7E], []) := by decide
/-- R52: the data byte 0x7D. -/
theorem test_wirePair7D : result (exec .wirePair7D (st true false [0x7E, 0x00, 0x01] []))
    = some (some ⟨.ok, 1, []⟩, true, false, [0x7E, 0x00, 0x01, 0x7D], []) := by decide
/-- 2.5: an escaped length byte; L = 17. -/
theorem test_wirePair11_length : result (exec .wirePair11 (st true false [0x7E, 0x00] []))
    = some (some ⟨.ok, 18, []⟩, true, false, [0x7E, 0x00, 0x11], []) := by decide
/-- R52: the data byte 0x13. -/
theorem test_wirePair13 : result (exec .wirePair13 (st true false [0x7E, 0x00, 0x01] []))
    = some (some ⟨.ok, 1, []⟩, true, false, [0x7E, 0x00, 0x01, 0x13], []) := by decide

/-! ### The step -/

/-- Program P4 step 3: the reserved word 0x000. -/
theorem test_step_reserved : answer (step (State.reset.withFetchWord 16 0x000)) = some ⟨.illegalCmd, 0, []⟩ := by decide
/-- Program P4 step 2: PARSE from reset. -/
theorem test_step_parse : answer (step (State.reset.withFetchWord 16 0x400)) = some ⟨.notReady, 3, []⟩ := by decide
/-- The wire row is run from the input as the table numbers it. -/
theorem test_step_pair : nextOf (step (State.reset.withFetchWord 16 0x7D31)) = nextOf (exec .wirePair11 State.reset) := by decide
/-- R130: idle without input. -/
theorem test_step_idle : nextOf (step State.reset) = some State.reset := by decide

/-! ### A witness for each statement with hypotheses -/

/-- The document's frame S4 with a good and with a bad checksum, an incomplete frame, and the empty frame. -/
def good : State := st false false [0x7E, 0x00, 0x01, 0x00, 0xFF] [0xAA]
def bad : State := st false false [0x7E, 0x00, 0x01, 0x00, 0xF6] [0xAA]
def open3 : State := st true false [0x7E, 0x00, 0x01] [0xAA]
def full : State := { State.reset with data := List.replicate 65535 0 }

theorem full_dataLen : full.dataLen = 65535 := List.length_replicate

theorem test_witness_DecodeOfEncodeIsTheInstruction : (Instr.wirePair 0x23).wf = true := by decide
theorem test_witness_CommandWordHasOneMeaning : decodeCommand 0x101 = .ok (.new true) := rfl
theorem test_witness_WireItemsLoseNoByte : decodeWire [0x7D, 0x23, 0x41] = some (.wirePair 0x23, [0x41])
    ∧ decodeWire [0x41] = some (.fill 0x41, []) := by decide
theorem test_witness_StepRunsTheDecodedCommand :
    (State.reset.withFetchWord 16 0x300).inputs = .command 0x300 :: [] ∧ decodeCommand 0x300 = .ok .rem := ⟨rfl, rfl⟩
theorem test_witness_StepRunsTheDecodedWireItem_last :
    ({ State.reset with inputs := [.wire [0x7D, 0x31]] } : State).inputs = .wire [0x7D, 0x31] :: []
    ∧ decodeWire [0x7D, 0x31] = some (.wirePair11, []) := by decide
theorem test_witness_StepRunsTheDecodedWireItem_more :
    ({ State.reset with inputs := [.wire [0x7E, 0x00]] } : State).inputs = .wire [0x7E, 0x00] :: []
    ∧ decodeWire [0x7E, 0x00] = some (.wireStart, [0x00]) := by decide
/-- One reserved word of each clause of R60, at the edges of the clauses. -/
theorem test_witness_ReservedWordIsRefused :
    IsReservedWord 0x700 ∧ IsReservedWord 0xFFF ∧ IsReservedWord 0x301 ∧ IsReservedWord 0x102 ∧ ¬ IsReservedWord 0x101
    ∧ ({ State.reset with inputs := [.command 0x700] } : State).inputs = .command 0x700 :: [] := by
  unfold IsReservedWord; decide
theorem test_witness_StepWithoutInstruction : State.reset.inputs = []
    ∧ ({ State.reset with inputs := [.wire []] } : State).inputs = .wire [] :: [] := ⟨rfl, rfl⟩
theorem test_witness_ResetEventGivesTheResetValues :
    ({ good with inputs := [.reset] } : State).inputs = .reset :: [] := rfl
theorem test_witness_WireChunkIsFedByteByByte :
    ({ open3 with inputs := [.wire [0x7D, 0x31, 0x7D]] } : State).inputs = .wire [0x7D, 0x31, 0x7D] :: [] := rfl
theorem test_witness_OnlyNewWritesEscaped : (∃ t, exec (.fill 0x55) open3 = .next t) ∧ ∀ e, Instr.fill 0x55 ≠ .new e :=
  ⟨⟨_, rfl⟩, by decide⟩
theorem test_witness_DeclaredLengthIsBigEndian : State.reset.accCnt < 3 ∧ open3.accCnt = 3
    ∧ open3.memRead .acc 1 = some 0x00 ∧ open3.memRead .acc 2 = some 0x01 := by decide
/-- The header phase at its last count, the header just complete, the frame complete, and the longest declared length. -/
theorem test_witness_RemainingCountFormula : (st false false [0x7E, 0x00] []).accCnt < 3
    ∧ open3.declaredLength = some 1 ∧ open3.accCnt = 3 ∧ open3.accCnt ≤ 1 + 4
    ∧ good.declaredLength = some 1 ∧ good.accCnt = 1 + 4
    ∧ (st false false [0x7E, 0xFF, 0xFF] []).declaredLength = some 65535 := by decide
theorem test_witness_RemAnswersTheRemainingCount : (st false false [0x7E, 0x00] []).acc.length < 3
    ∧ open3.acc = 0x7E :: 0x00 :: 0x01 :: [] := by decide
/-- One state for each row of R53. -/
theorem test_witness_FillStoresOrConsumes :
    ((st false false [] []).rem ≠ 0 ∧ (st false false [] []).escaped = false ∧ (st false false [] []).escPending = false)
    ∧ (open3.rem ≠ 0 ∧ open3.escaped = true ∧ open3.escPending = false)
    ∧ ((st true true [0x7E, 0x00, 0x01] []).rem ≠ 0 ∧ (st true true [0x7E, 0x00, 0x01] []).escaped = true
      ∧ (st true true [0x7E, 0x00, 0x01] []).escPending = true) := by decide
theorem test_witness_FillAnswersTheNewCount : (st false false [0x7E, 0x00, 0x01, 0x00] []).rem ≠ 0 := by decide
theorem test_witness_FillOnACompleteFrameIsOverrun : good.rem = 0 := by decide
/-- A consumed marker, the second and the third byte of a header, and the last byte of a frame. -/
theorem test_witness_FillMovesTheCount :
    (open3.rem ≠ 0 ∧ (open3.feed 0x7D).accCnt = open3.accCnt)
    ∧ ((st false false [0x7E] []).rem ≠ 0 ∧ ((st false false [0x7E] []).feed 0x00).accCnt ≠ (st false false [0x7E] []).accCnt)
    ∧ ((st false false [0x7E, 0x00] []).rem ≠ 0 ∧ (st false false [0x7E, 0x00] []).accCnt = 2
      ∧ ((st false false [0x7E, 0x00] []).feed 0x01).accCnt ≠ (st false false [0x7E, 0x00] []).accCnt)
    ∧ exec (.fill 0x7D) open3 = .next (open3.feed 0x7D) :=
  ⟨by decide, by decide, by decide, rfl⟩
/-- A payload of one byte, and of none. -/
theorem test_witness_ParseDeliversTheVerifiedPayload :
    (good.acc = [0x7E, 0x00, 0x01] ++ [0x00] ++ [0xFF] ∧ ([0x00] : List Byte).length = (0x00 : Byte).toNat * 256 + (0x01 : Byte).toNat
      ∧ ((([0x00] : List Byte).map BitVec.toNat).sum + (0xFF : Byte).toNat) % 256 = 255)
    ∧ ((st false false [0x7E, 0x00, 0x00, 0xFF] []).acc = [0x7E, 0x00, 0x00] ++ [] ++ [0xFF]
      ∧ ((([] : List Byte).map BitVec.toNat).sum + (0xFF : Byte).toNat) % 256 = 255) := by decide
theorem test_witness_ParseReportsAnInvalidChecksum :
    bad.acc = [0x7E, 0x00, 0x01] ++ [0x00] ++ [0xF6] ∧ ([0x00] : List Byte).length = (0x00 : Byte).toNat * 256 + (0x01 : Byte).toNat
    ∧ ((([0x00] : List Byte).map BitVec.toNat).sum + (0xF6 : Byte).toNat) % 256 ≠ 255 := by decide
theorem test_witness_ParseOfAnIncompleteFrameIsNotReady : State.reset.rem ≠ 0 ∧ open3.rem ≠ 0 := by decide
theorem test_witness_ParseOfTheEmptyFrame : (st false false [0x7E, 0x00, 0x00, 0xFF] []).acc = [0x7E, 0x00, 0x00, 0xFF]
    ∧ (st false false [0x7E, 0x00, 0x00, 0x00] []).acc = [0x7E, 0x00, 0x00, 0x00] ∧ (0x00 : Byte) ≠ 0xFF := by decide
theorem test_witness_ParseIsRepeatable : ∃ t, exec .parse good = .next t := ⟨_, rfl⟩
theorem test_witness_StartByteIsNeverChecked : good.acc = 0x7E :: [0x00, 0x01, 0x00, 0xFF] ∧ ∃ t, exec .parse good = .next t :=
  ⟨rfl, _, rfl⟩
/-- Each outcome of PARSE is reached: OK (with an index below and one at the length), INVALID_CHECKSUM and NOT_READY. -/
theorem test_witness_ParseWritesOnlyData :
    (answer (exec .parse good)).map (fun r => (r.status, r.value)) = some (.ok, 1)
    ∧ (answer (exec .parse bad)).map Response.status = some .invalidChecksum
    ∧ (answer (exec .parse open3)).map Response.status = some .notReady := by decide
theorem test_witness_PutAppendsOneByte : State.reset.dataLen < 65535
    ∧ ({ State.reset with data := List.replicate 65534 0 } : State).dataLen < 65535 :=
  ⟨by decide, by rw [State.dataLen, List.length_replicate]; omega⟩
theorem test_witness_PutOnAFullPayloadIsRefused : full.dataLen = 65535 := full_dataLen
theorem test_witness_OutputIsTheWireFrame : State.reset.dataLen ≤ 65535 ∧ open3.escaped = true ∧ open3.dataLen ≤ 65535
    ∧ full.dataLen ≤ 65535 := ⟨by decide, by decide, by decide, full_dataLen.le⟩
theorem test_witness_SingleChangeIsDetected : (0x37 : Byte) ≠ 0x36 ∧ verify ([] ++ 0x36 :: []) 0xC9 = true
    ∧ (0xC8 : Byte) ≠ 0xC9 := by decide
theorem test_witness_UnescapeStepIsFillInEscapedMode : open3.escaped = true ∧ open3.rem ≠ 0 ∧ (0x41 : Byte) ≠ 0x7D := by decide
theorem test_witness_UnescapeUndoesEscape : escape [0x7E, 0x41] = escape [0x7E, 0x41] ∧ escape [0x7E, 0x41] = [0x7D, 0x5E, 0x41] := by decide
theorem test_witness_EscapeAndUnescapeInPieces : unescape [0x7D, 0x5E] = ([0x7E], false)
    ∧ ([0x7D, 0x5E] : List Byte) = escape [0x7E] ∧ (0x7D : Byte) ∈ escape [0x7E]
    ∧ escape [0x41, 0x7D, 0x11] = [0x41] ++ 0x7D :: [0x5D, 0x7D, 0x31] ∧ isSpecial 0x7D = true := by decide
/-- The data bounds, and a sequence with and one without a marker pending at its end. -/
theorem test_witness_EscAndUnescAnswerFromData : open3.dataLen ≤ 65535 ∧ full.dataLen ≤ 65535
    ∧ (unescape [0x41, 0x7D]).2 = true ∧ (unescape [0x7D, 0x7D]).2 = false ∧ (0x7E : Byte) ≠ 0x7D :=
  ⟨by decide, full_dataLen.le, by decide, by decide, by decide⟩
theorem test_witness_PrimitivesSeeOnlyData : open3.data = good.data ∧ open3.escaped ≠ good.escaped
    ∧ (∃ t, exec .csum open3 = .next t) ∧ (∃ t, exec .csum good = .next t) := ⟨rfl, by decide, ⟨_, rfl⟩, ⟨_, rfl⟩⟩
/-- With no marker pending, with one, and in the state of log entry 14. -/
theorem test_witness_WireStartIsStoredAsData : (st false true [] []).rem ≠ 0 ∧ open3.rem ≠ 0 ∧ (st true true [] []).rem ≠ 0 := by decide
theorem test_witness_WireMarkerIsConsumedOrStored : (st false true [] []).rem ≠ 0 ∧ open3.rem ≠ 0 ∧ (st false false [] []).rem ≠ 0 ∧ (st true true [] []).rem ≠ 0 := by decide
theorem test_witness_EscapePairIsStoredAsOneByte : (0x03 : Byte) = 0x23 ^^^ 0x20
    ∧ open3.escaped = true ∧ open3.escPending = false ∧ open3.rem ≠ 0 := by decide
theorem test_witness_WireRowsAreTheirBytesFed : encode .wirePair7E = .wire [0x7D, 0x5E] ∧ encode .wireMarker = .wire [0x7D] := by decide
theorem test_witness_WireRowFrame : encode .wirePair7E = .wire [0x7D, 0x5E] ∧ (∃ t, exec .wirePair7E open3 = .next t)
    ∧ 2 < open3.accCnt ∧ open3.accCnt + 2 ≤ 5 := ⟨by decide, ⟨_, rfl⟩, by decide, by decide⟩
/-- The invariants hold with a marker pending in mid-frame, and of a complete frame. -/
theorem test_witness_Inv : (st true true [0x7E, 0x00, 0x01] []).Inv ∧ good.Inv :=
  ⟨⟨by decide, by intro n h; cases h; decide, by decide, by decide⟩, ⟨by decide, by intro n h; cases h; decide, by decide, by decide⟩⟩
theorem test_witness_StepKeepsTheInvariants : State.reset.Inv ∧ ∃ t, step State.reset = .next t :=
  ⟨⟨by decide, (by intro n h; cases h), by decide, by decide⟩, ⟨_, rfl⟩⟩
theorem test_witness_InvariantsBoundTheBuffers : good.Inv := test_witness_Inv.2
theorem test_witness_StoredBytesAreNeverRewritten :
    (∃ t, step { open3 with inputs := [.command 0x241] } = .next t)
    ∧ ([.command 0x241] : List Input).head? ≠ some .reset ∧ ([.command 0x241] : List Input).head? ≠ some (.command 0x100)
    ∧ ([.command 0x241] : List Input).head? ≠ some (.command 0x101) ∧ 0 < open3.accCnt ∧ open3.declaredLength = some 1 :=
  ⟨⟨_, rfl⟩, by decide, by decide, by decide, by decide, by decide⟩
theorem test_witness_QueriesWriteNothing : (∃ t, exec .rem open3 = .next t) ∧ (∃ t, exec .unesc good = .next t) := ⟨⟨_, rfl⟩, ⟨_, rfl⟩⟩
theorem test_witness_RefusalsAndErrorsWriteNothing :
    ({ open3 with inputs := [.command 0x400] } : State).inputs = .command 0x400 :: []
    ∧ (answer (step { open3 with inputs := [.command 0x400] })).map Response.status = some .notReady := by decide
/-- Each of the five statuses other than OK is raised. -/
theorem test_witness_EachStatusHasOneSource :
    (answer (step { open3 with inputs := [.command 0x700] })).map Response.status = some .illegalCmd
    ∧ (answer (step { open3 with inputs := [.command 0x400] })).map Response.status = some .notReady
    ∧ (answer (step { bad with inputs := [.command 0x400] })).map Response.status = some .invalidChecksum
    ∧ (answer (step { bad with inputs := [.command 0x27E] })).map Response.status = some .overrun
    ∧ (∃ r, answer (execPut 0x00 full) = some r ∧ r.status = .dataFull) :=
  ⟨by decide, by decide, by decide, by decide, by
    rw [execPut, if_pos (show full.dataLen = Config.maxPayload from full_dataLen)]; exact ⟨_, rfl, rfl⟩⟩
/-- Every phase is reached, and a byte that leads to each. -/
theorem test_witness_PhaseTransitions : (st false false [] []).phase = .awaitingStart
    ∧ ((st false false [] []).feed 0x7E).phase = .accumulatingLength
    ∧ ((st false false [0x7E, 0x00] []).feed 0x00).phase = .accumulatingPayload
    ∧ (st false false [0x7E, 0x00, 0x00] []).rem = 1 ∧ ((st false false [0x7E, 0x00, 0x00] []).feed 0xFF).phase = .complete
    ∧ (∃ t, exec .rem open3 = .next t) ∧ (∀ e, Instr.rem ≠ .new e) ∧ (∀ b, Instr.rem ≠ .fill b)
    ∧ (∀ bytes, encode .rem ≠ .wire bytes)
    ∧ ({ good with inputs := [.reset] } : State).inputs = .reset :: [] ∧ good.phase = .complete
    ∧ ({ good with inputs := [.wire []] } : State).inputs.head? = some (.wire [])
    ∧ ({ good with inputs := [.command 0x700] } : State).inputs.head? = some (.command 0x700)
    ∧ (∃ t, step good = .next t) :=
  ⟨by decide, by decide, by decide, by decide, by decide, ⟨_, rfl⟩, by decide, by decide, (fun _ h => by cases h),
    rfl, by decide, rfl, rfl, ⟨_, rfl⟩⟩
theorem test_witness_FrameRoundTrip : ([0x7E, 0x11, 0x41] : List Byte).length ≤ 65535 ∧ (List.replicate 65535 (0x7E : Byte)).length ≤ 65535 :=
  ⟨by decide, by rw [List.length_replicate]⟩

end Sys2Proof.Tests
end

section
/-! The declared length and the remaining count (10_state.md R19, R20). -/

namespace Sys2Proof.Machine

theorem State.declaredLength_eq_none_iff (s : State) : s.declaredLength = none ↔ s.accCnt < 3 := by
  obtain ⟨hnone, hlt⟩ | ⟨_, _, _, _, hacc, hsome⟩ := s.declaredLength_cases
  · exact iff_of_true hnone hlt
  · simp [hsome, State.accCnt, hacc]

/-- The two length bytes are found through `MemRead` alone: a byte at index 2 is stored only from the third byte on. -/
theorem State.declaredLength_of_memRead {s : State} {msb lsb : Byte} (hmsb : s.memRead .acc 1 = some msb)
    (hlsb : s.memRead .acc 2 = some lsb) : s.declaredLength = some (lengthOfBytes msb lsb) := by
  rw [State.memRead_acc] at hmsb hlsb
  obtain ⟨-, hlt⟩ | ⟨_, m, l, _, hacc, hsome⟩ := s.declaredLength_cases
  · rw [List.getElem?_eq_none (Nat.le_of_lt_succ hlt)] at hlsb
    cases hlsb
  · rw [hacc] at hmsb hlsb
    cases hmsb
    cases hlsb
    exact hsome

/-- Within the frame (10_state.md R27 V2) the subtraction of R20 is exact: received and missing bytes make up the whole frame. -/
theorem State.rem_add_accCnt {s : State} {len : Nat} (hlen : s.declaredLength = some len)
    (hin : s.accCnt ≤ len + 4) : s.rem + s.accCnt = len + 4 := by
  have hrem := State.rem_of_declaredLength hlen
  have h3 : 3 ≤ s.accCnt := State.three_le_of_declaredLength hlen
  omega

/-- Settles O17, by the shapes of the accumulator below and from the third byte. -/
theorem declaredLengthIsBigEndian : Obligations.DeclaredLengthIsBigEndian := by
  unfold Obligations.DeclaredLengthIsBigEndian
  exact fun s => ⟨s.declaredLength_eq_none_iff, fun msb lsb hmsb hlsb =>
    ⟨State.declaredLength_of_memRead hmsb hlsb, lengthOfBytes_le msb lsb⟩⟩

/-- Settles O18: the range and the condition for 0 follow from the exact sum `State.rem_add_accCnt`. -/
theorem remainingCountFormula : Obligations.RemainingCountFormula := by
  unfold Obligations.RemainingCountFormula
  refine fun s => ⟨fun hheader => ?_, fun len hlen => ?_⟩
  · have hrem := State.rem_of_header (s.declaredLength_eq_none_iff.mpr hheader)
    omega
  · have hrem := State.rem_of_declaredLength hlen
    have h3 : 3 ≤ s.accCnt := State.three_le_of_declaredLength hlen
    refine ⟨hrem, fun hcnt => by omega, fun hin => ?_⟩
    have hsum := State.rem_add_accCnt hlen hin
    exact ⟨hsum, s.rem_le, by omega⟩

end Sys2Proof.Machine
end

section
/-! What FILL stores on an incomplete frame (30_encoding.md R53). -/

namespace Sys2Proof.Machine

/-! The four rows of R53's table, read off the receiver's function. -/

theorem receive_unescaped (b : Byte) : receive false false b = (false, some b) := rfl

theorem receive_marker : receive true false 0x7D = (true, none) := rfl

theorem receive_escaped_of_ne_marker {b : Byte} (hb : b ≠ 0x7D) : receive true false b = (false, some b) := by
  have hmarker : (b == Config.marker) = false := beq_false_of_ne hb
  simp [receive, hmarker]

theorem receive_of_pending (escaped : Bool) (b : Byte) : receive escaped true b = (false, some (b ^^^ 0x20)) := rfl

theorem State.feed_of_incomplete {s : State} (hrem : s.rem ≠ 0) (b : Byte) :
    s.feed b = (s.acceptByte b).respond .ok (s.acceptByte b).rem [] :=
  if_neg hrem

/-- Settles O20: an incomplete frame accepts the byte, and each clause is one row of the receiver's table. -/
theorem fillStoresOrConsumes : Obligations.FillStoresOrConsumes := by
  unfold Obligations.FillStoresOrConsumes
  intro s b hrem
  refine ⟨s.feed b, exec_fill b s, ?_⟩
  rw [State.feed_of_incomplete hrem, State.respond_acc, State.respond_escPending, State.acceptByte_acc,
    State.acceptByte_escPending]
  refine ⟨fun hmode hpend => ?_, fun hmode hpend hb => ?_, fun hmode hpend hb => ?_, fun _ hpend => ?_⟩
  · simp [hmode, hpend, receive_unescaped]
  · rw [hmode, hpend, hb, receive_marker]
    simp
  · simp [hmode, hpend, receive_escaped_of_ne_marker hb]
  · simp [hpend, receive_of_pending]

end Sys2Proof.Machine
end

section
/-! The additive checksum and its verification (40_primitives.md R69 to R71). -/

namespace Sys2Proof.Machine

theorem toNat_add8 (s b : Byte) : (add8 s b).toNat = (s.toNat + b.toNat) % 256 := BitVec.toNat_add s b

/-- The fold of R69 from any start: the carries that `add8` discards are lost to the sum modulo 256 as well. -/
theorem toNat_foldl_add8 (p : List Byte) (start : Byte) :
    (p.foldl add8 start).toNat = (start.toNat + (p.map BitVec.toNat).sum) % 256 := by
  induction p generalizing start with
  | nil => exact (Nat.mod_eq_of_lt start.isLt).symm
  | cons b p ih => rw [List.foldl_cons, ih, toNat_add8, List.map_cons, List.sum_cons, Nat.mod_add_mod, Nat.add_assoc]

/-- The running sum is the natural-number sum modulo 256 (40_primitives.md R69). -/
theorem toNat_sum8 (p : List Byte) : (sum8 p).toNat = (p.map BitVec.toNat).sum % 256 := by
  simp [sum8, toNat_foldl_add8]

theorem sum8_of_perm {p q : List Byte} (h : p.Perm q) : sum8 q = sum8 p :=
  BitVec.eq_of_toNat_eq (by rw [toNat_sum8, toNat_sum8, (h.map BitVec.toNat).sum_eq])

theorem checksum_eq_sub (p : List Byte) : checksum p = 0xFF - sum8 p := rfl

theorem checksum_eq_not (p : List Byte) : checksum p = ~~~sum8 p := BitVec.allOnes_sub_eq_not (sum8 p)

theorem checksum_eq_xor (p : List Byte) : checksum p = sum8 p ^^^ 0xFF :=
  (checksum_eq_not p).trans BitVec.xor_allOnes.symm

theorem toNat_checksum (p : List Byte) : (checksum p).toNat = 255 - (p.map BitVec.toNat).sum % 256 := by
  rw [checksum_eq_not, BitVec.toNat_not, toNat_sum8]

theorem checksum_eq_zero_iff (p : List Byte) : checksum p = 0x00 ↔ sum8 p = 0xFF := by
  rw [checksum_eq_sub, sub_eq_zero, eq_comm]

theorem checksum_of_perm {p q : List Byte} (h : p.Perm q) : checksum q = checksum p := by
  rw [checksum, sum8_of_perm h, checksum]

theorem verify_eq_true_iff_add8 (p : List Byte) (chk : Byte) : verify p chk = true ↔ add8 (sum8 p) chk = 0xFF :=
  beq_iff_eq

theorem verify_eq_true_iff_sum (p : List Byte) (chk : Byte) :
    verify p chk = true ↔ ((p.map BitVec.toNat).sum + chk.toNat) % 256 = 255 := by
  rw [verify_eq_true_iff_add8, ← BitVec.toNat_inj, toNat_add8, toNat_sum8, Nat.mod_add_mod]
  exact Iff.rfl

theorem verify_eq_true_iff_checksum (p : List Byte) (chk : Byte) : verify p chk = true ↔ chk = checksum p := by
  rw [verify_eq_true_iff_add8, checksum_eq_sub, eq_sub_iff_add_eq', add8]

/-- Settles O34: the numeric form rests on `toNat_sum8`, the others on the complement of a byte. -/
theorem checksumIsTheComplementOfTheSum : Obligations.ChecksumIsTheComplementOfTheSum := by
  unfold Obligations.ChecksumIsTheComplementOfTheSum
  refine ⟨fun p => ⟨toNat_checksum p, checksum_eq_sub p, checksum_eq_not p, checksum_eq_xor p,
    checksum_eq_zero_iff p, fun q hpq => checksum_of_perm hpq⟩, ?examples⟩
  case examples => decide

/-- Settles O35: the unique candidate is `0xFF - sum8 P`, and on the empty payload that is 0xFF. -/
theorem verifyAcceptsExactlyTheChecksum : Obligations.VerifyAcceptsExactlyTheChecksum := by
  unfold Obligations.VerifyAcceptsExactlyTheChecksum
  refine ⟨fun p chk => ⟨verify_eq_true_iff_sum p chk, verify_eq_true_iff_checksum p chk⟩, fun chk => ?_, by decide⟩
  have hempty : checksum [] = 0xFF := by decide
  rw [verify_eq_true_iff_checksum, hempty]

end Sys2Proof.Machine
end

section
/-! Byte stuffing: the escape of a byte and of a sequence, and one step of undoing it (40_primitives.md R73 to R76). -/

namespace Sys2Proof.Machine

theorem isSpecial_iff (b : Byte) : isSpecial b = true ↔ b = 0x7E ∨ b = 0x7D ∨ b = 0x11 ∨ b = 0x13 := by
  simp [isSpecial, Config.start, Config.marker, Config.xon, Config.xoff, or_assoc]

theorem escByte_eq_ite (b : Byte) : escByte b = if isSpecial b then [0x7D, b ^^^ 0x20] else [b] := rfl

theorem length_escByte (b : Byte) : (escByte b).length = if isSpecial b then 2 else 1 := by
  rw [escByte_eq_ite]
  split <;> rfl

/-- ESC_XOR has bit 5 and no other. -/
theorem getLsbD_escXor {i : Nat} (hi : i < 8) : (0x20 : Byte).getLsbD i = decide (i = 5) := by
  revert i
  decide

theorem escape_append (x y : List Byte) : escape (x ++ y) = escape x ++ escape y := List.flatMap_append

theorem escape_singleton (b : Byte) : escape [b] = escByte b := List.flatMap_singleton escByte b

theorem length_escape (x : List Byte) : (escape x).length = x.length + x.countP isSpecial := by
  induction x with
  | nil => rfl
  | cons b x ih =>
    rw [escape_cons, List.length_append, length_escByte, ih, List.length_cons, List.countP_cons]
    split <;> omega

theorem frameBytes_escaped (p : List Byte) : frameBytes true p = 0x7E :: escape (frameBody p) := rfl

/-! The three cases of `unesc_step`, the pending flag first. -/

theorem unescStep_of_pending (b : Byte) : unescStep true b = (false, some (b ^^^ 0x20)) := rfl

theorem unescStep_marker : unescStep false 0x7D = (true, none) := rfl

theorem unescStep_of_ne_marker {b : Byte} (hb : b ≠ 0x7D) : unescStep false b = (false, some b) :=
  if_neg hb

/-- In escaped mode an incomplete frame takes a byte as `unesc_step` does, from the pending flag it holds. -/
theorem State.feed_escaped_eq_unescStep {s : State} (hmode : s.escaped = true) (hrem : s.rem ≠ 0) (b : Byte) :
    (s.feed b).escPending = (unescStep s.escPending b).1
    ∧ (s.feed b).acc = s.acc ++ (unescStep s.escPending b).2.toList := by
  rw [State.feed_of_incomplete hrem, State.respond_escPending, State.respond_acc, State.acceptByte_escPending,
    State.acceptByte_acc, hmode, receive_escaped]
  exact ⟨rfl, rfl⟩

/-- Settles O39: each byte becomes one byte or two, so the length counts the special bytes, of which there are at most `len X`. -/
theorem escapeIsByteByByte : Obligations.EscapeIsByteByByte := by
  unfold Obligations.EscapeIsByteByByte
  refine ⟨rfl, fun x b => ?_, fun x => ?_, frameBytes_escaped, by decide⟩
  · rw [escape_append, escape_singleton]
  · have hlen := length_escape x
    have hcount : x.countP isSpecial ≤ x.length := List.countP_le_length
    exact ⟨hlen, by omega, by omega⟩

/-- Settles O40: the three cases of the step, and FILL through the receiver's table in escaped mode. -/
theorem unescapeStepIsFillInEscapedMode : Obligations.UnescapeStepIsFillInEscapedMode := by
  unfold Obligations.UnescapeStepIsFillInEscapedMode
  exact ⟨unescStep_of_pending, unescStep_marker, fun _ hb => unescStep_of_ne_marker hb,
    fun s b hmode hrem => ⟨s.feed b, exec_fill b s, State.feed_escaped_eq_unescStep hmode hrem b⟩⟩

/-- Settles O38: the bit clause splits on whether the bit is the one ESC_XOR has. -/
theorem specialBytesAndTheirPairs : Obligations.SpecialBytesAndTheirPairs := by
  unfold Obligations.SpecialBytesAndTheirPairs
  refine ⟨isSpecial_iff, escByte_eq_ite, by decide, by decide, by decide, by decide, fun b i hi => ?_⟩
  rw [BitVec.getLsbD_xor, getLsbD_escXor hi]
  by_cases h5 : i = 5 <;> simp [h5]

end Sys2Proof.Machine
end

section
/-! REM: the remaining count as an 18-bit response value (41_frame_codec.md R95). -/

namespace Sys2Proof.Machine

/-- The response's 18 bits hold the remaining count exactly, in every state (30_encoding.md R58). -/
theorem State.toNat_ofNat_rem (s : State) : (BitVec.ofNat 18 s.rem).toNat = s.rem :=
  Nat.mod_eq_of_lt (Nat.lt_of_le_of_lt s.rem_le (by decide))

/-- From the third byte on the remaining count is a formula in the accumulator's bytes. -/
theorem State.rem_of_acc_eq_cons {s : State} {start msb lsb : Byte} {body : List Byte}
    (hacc : s.acc = start :: msb :: lsb :: body) :
    s.rem = (msb.toNat * 256 + lsb.toNat + 1) - (s.acc.length - 3) := by
  have hmsb : s.memRead .acc 1 = some msb := by rw [State.memRead_acc, hacc]; rfl
  have hlsb : s.memRead .acc 2 = some lsb := by rw [State.memRead_acc, hacc]; rfl
  exact State.rem_of_declaredLength (State.declaredLength_of_memRead hmsb hlsb)

/-- Settles O19: the value is `rem` unnarrowed, and `rem` is read off the header phase or off the two length bytes. -/
theorem remAnswersTheRemainingCount : Obligations.RemAnswersTheRemainingCount := by
  unfold Obligations.RemAnswersTheRemainingCount
  refine ⟨by decide, fun s => ⟨BitVec.ofNat 18 s.rem, exec_rem s, ?_⟩⟩
  rw [State.toNat_ofNat_rem]
  exact ⟨fun hheader => State.rem_of_header (s.declaredLength_eq_none_iff.mpr hheader),
    fun _ _ _ _ hacc => State.rem_of_acc_eq_cons hacc⟩

end Sys2Proof.Machine
end

section
/-! The encodings: command words by their two fields (30_encoding.md R55 to R60), and chunks of wire bytes (R52, R53). -/

namespace Sys2Proof

theorem toNat_opField (w : CommandWord) : (opField w).toNat = w.toNat / 256 := by
  simp only [opField, BitVec.extractLsb'_toNat, Nat.shiftRight_eq_div_pow]
  omega

theorem toNat_argField (w : CommandWord) : (argField w).toNat = w.toNat % 256 := by
  simp [argField, BitVec.extractLsb'_toNat]

@[simp] theorem opField_commandWord (op : BitVec 4) (arg : Byte) : opField (commandWord op arg) = op :=
  BitVec.extractLsb'_append_eq_left

@[simp] theorem argField_commandWord (op : BitVec 4) (arg : Byte) : argField (commandWord op arg) = arg :=
  BitVec.extractLsb'_append_eq_right

/-- A command word is its two fields and nothing else (R55). -/
theorem commandWord_fields (w : CommandWord) : commandWord (opField w) (argField w) = w :=
  BitVec.extractLsb'_append_extractLsb'_eq_extractLsb' rfl |>.trans BitVec.extractLsb'_eq_self

/-- NEW's operand is 0 or 1, and anything else is reserved (R57, R60). -/
theorem decodeNew_cases (arg : Byte) :
    (∃ e : Bool, decodeNew arg = .ok (.new e) ∧ arg = if e then 1 else 0)
    ∨ (decodeNew arg = .error .newOperand ∧ arg.toNat / 2 ≠ 0) := by
  revert arg
  decide

theorem decodeNoOperand_cases (i : Instr) (arg : Byte) :
    (decodeNoOperand i arg = .ok i ∧ arg = 0) ∨ (decodeNoOperand i arg = .error .operand ∧ arg.toNat ≠ 0) := by
  by_cases harg : arg = 0
  · exact .inl ⟨if_pos harg, harg⟩
  · exact .inr ⟨if_neg harg, fun h => harg (BitVec.eq_of_toNat_eq h)⟩

end Sys2Proof

namespace Sys2Proof.Machine

/-- The reserved words of R60 by the fields of R55. -/
theorem isReservedWord_commandWord (op : BitVec 4) (arg : Byte) : IsReservedWord (commandWord op arg) ↔
    op.toNat ∈ [0x0, 0x7, 0xC, 0xD, 0xE, 0xF]
    ∨ (op.toNat ∈ [0x3, 0x4, 0x6, 0x8, 0xA, 0xB] ∧ arg.toNat ≠ 0) ∨ (op.toNat = 0x1 ∧ arg.toNat / 2 ≠ 0) := by
  rw [IsReservedWord, ← toNat_opField, ← toNat_argField, opField_commandWord, argField_commandWord]

/-- The decoder's two outcomes: a word that is not reserved is the encoding of what it decodes to, a reserved one is rejected. -/
def DecodesOrIsReserved (w : CommandWord) : Prop :=
  (∃ i, decodeCommand w = .ok i ∧ encode i = .command w ∧ ¬ IsReservedWord w)
  ∨ ∃ r, decodeCommand w = .error r ∧ IsReservedWord w

/-- An operation with an operand uses every value of it (R57). -/
theorem decodesOrIsReserved_of_operand {op : BitVec 4} {arg : Byte} {i : Instr} (hop : op.toNat ∈ [0x2, 0x5, 0x9])
    (hdec : decodeCommand (commandWord op arg) = .ok i) (henc : encode i = .command (commandWord op arg)) :
    DecodesOrIsReserved (commandWord op arg) := by
  refine .inl ⟨i, hdec, henc, ?_⟩
  rw [isReservedWord_commandWord]
  simp only [List.mem_cons, List.not_mem_nil, or_false] at hop ⊢
  omega

/-- An operation without operand takes 0 and no other value (R60). -/
theorem decodesOrIsReserved_of_no_operand {op : BitVec 4} {arg : Byte} {i : Instr}
    (hop : op.toNat ∈ [0x3, 0x4, 0x6, 0x8, 0xA, 0xB])
    (hdec : decodeCommand (commandWord op arg) = decodeNoOperand i arg)
    (henc : encode i = .command (commandWord op 0)) : DecodesOrIsReserved (commandWord op arg) := by
  obtain ⟨hok, rfl⟩ | ⟨herr, harg⟩ := decodeNoOperand_cases i arg
  · refine .inl ⟨i, hdec.trans hok, henc, ?_⟩
    rw [isReservedWord_commandWord]
    simp only [List.mem_cons, List.not_mem_nil, or_false] at hop ⊢
    have hzero : (0 : Byte).toNat = 0 := rfl
    omega
  · exact .inr ⟨_, hdec.trans herr, (isReservedWord_commandWord op arg).mpr (.inr (.inl ⟨hop, harg⟩))⟩

theorem decodesOrIsReserved_of_new (arg : Byte) : DecodesOrIsReserved (commandWord 0x1 arg) := by
  have hdec : decodeCommand (commandWord 0x1 arg) = decodeNew arg := by simp [decodeCommand]
  obtain ⟨e, hok, rfl⟩ | ⟨herr, harg⟩ := decodeNew_cases arg
  · refine .inl ⟨.new e, hdec.trans hok, rfl, ?_⟩
    rw [isReservedWord_commandWord]
    cases e <;> decide
  · exact .inr ⟨_, hdec.trans herr, (isReservedWord_commandWord 0x1 arg).mpr (.inr (.inr ⟨rfl, harg⟩))⟩

theorem decodesOrIsReserved_of_opcode {op : BitVec 4} (arg : Byte) (hop : op.toNat ∈ [0x0, 0x7, 0xC, 0xD, 0xE, 0xF])
    (hdec : decodeCommand (commandWord op arg) = .error .opcode) : DecodesOrIsReserved (commandWord op arg) :=
  .inr ⟨_, hdec, (isReservedWord_commandWord op arg).mpr (.inl hop)⟩

/-- One case for each row of the operation map R56. -/
theorem decodesOrIsReserved (w : CommandWord) : DecodesOrIsReserved w := by
  rw [← commandWord_fields w]
  generalize argField w = arg
  obtain ⟨op⟩ := opField w
  match op with
  | 0x1 => exact decodesOrIsReserved_of_new arg
  | 0x2 | 0x5 | 0x9 =>
    exact decodesOrIsReserved_of_operand (by decide) (by simp [decodeCommand]; rfl) rfl
  | 0x3 | 0x4 | 0x6 | 0x8 | 0xA | 0xB =>
    exact decodesOrIsReserved_of_no_operand (by decide) (by simp [decodeCommand]; rfl) rfl
  | 0x0 | 0x7 | 0xC | 0xD | 0xE | 0xF =>
    exact decodesOrIsReserved_of_opcode arg (by decide) (by simp [decodeCommand])
  | ⟨n + 16, hn⟩ => omega

/-- Settles O2: the other outcome of `decodesOrIsReserved` is an error. -/
theorem commandWordHasOneMeaning : Obligations.CommandWordHasOneMeaning := by
  unfold Obligations.CommandWordHasOneMeaning
  intro w i hi
  obtain ⟨j, hj, henc, -⟩ | ⟨r, hr, -⟩ := decodesOrIsReserved w
  · rw [hi] at hj
    cases hj
    exact henc
  · rw [hi] at hr
    cases hr

/-- Settles O3: a word has exactly one of the two outcomes of `decodesOrIsReserved`. -/
theorem decoderRejectsExactlyReserved : Obligations.DecoderRejectsExactlyReserved := by
  unfold Obligations.DecoderRejectsExactlyReserved
  intro w
  obtain ⟨i, hi, -, hfree⟩ | ⟨r, hr, hres⟩ := decodesOrIsReserved w
  · refine iff_of_false ?_ hfree
    rintro ⟨r, hr⟩
    rw [hi] at hr
    cases hr
  · exact iff_of_true ⟨r, hr⟩ hres

theorem encode_decodePair (x : Byte) : encode (decodePair x) = .wire [Config.marker, x] := by
  unfold decodePair
  split_ifs <;> simp_all [encode]

theorem decodePair_of_wf {x : Byte} (hwf : (Instr.wirePair x).wf = true) : decodePair x = .wirePair x := by
  simp only [Instr.wf, isTransmittedSecond, Bool.not_eq_true', Bool.or_eq_false_iff, beq_eq_false_iff_ne] at hwf
  obtain ⟨⟨⟨h5E, h5D⟩, h31⟩, h33⟩ := hwf
  rw [decodePair, if_neg h5E, if_neg h5D, if_neg h31, if_neg h33]

/-- Settles O1: an operation by its row of R56, a wire row by its bytes. -/
theorem decodeOfEncodeIsTheInstruction : Obligations.DecodeOfEncodeIsTheInstruction := by
  unfold Obligations.DecodeOfEncodeIsTheInstruction
  intro i hwf
  cases i with
  | new e => cases e <;> decide
  | fill b | put b | verify c => simp [encode, decodeInput, decodeCommand]
  | rem | parse | output | csum | esc | unesc => decide
  | wireStart | wireMarker | wirePair7E | wirePair7D | wirePair11 | wirePair13 => decide
  | wirePair x => simp [encode, decodeInput, decodeWire, decodePair_of_wf hwf]

/-- Settles O4. -/
theorem encodingsOfTheSpec : Obligations.EncodingsOfTheSpec := by
  unfold Obligations.EncodingsOfTheSpec
  decide

/-- A wire item and the bytes it takes from the front of its chunk: its encoding, or the operand of FILL for a byte without a row. -/
def IsItemOf (i : Instr) (front : List Byte) : Prop :=
  encode i = .wire front ∨ ∃ b, i = .fill b ∧ front = [b]

/-- A byte that takes no second byte with it. -/
theorem isItemOf_byte (b : Byte) : IsItemOf (if b = Config.start then .wireStart else .fill b) [b] := by
  split
  case isTrue hb => exact .inl (by rw [hb]; rfl)
  case isFalse => exact .inr ⟨b, rfl, rfl⟩

theorem isItemOf_last (b : Byte) :
    IsItemOf (if b = Config.start then .wireStart else if b = Config.marker then .wireMarker else .fill b) [b] := by
  by_cases hb : b = Config.marker
  · rw [hb]
    exact .inl rfl
  · rw [if_neg hb]
    exact isItemOf_byte b

/-- The three shapes of a chunk: the bytes of its first item, and what is left. -/
theorem decodeWire_cases (bytes : List Byte) :
    (bytes = [] ∧ decodeWire bytes = none)
    ∨ ∃ i front left, front ≠ [] ∧ bytes = front ++ left ∧ IsItemOf i front ∧ decodeWire bytes = some (i, left) := by
  match bytes with
  | [] => exact .inl ⟨rfl, rfl⟩
  | [b] => exact .inr ⟨_, [b], [], by simp, rfl, isItemOf_last b, rfl⟩
  | b :: x :: rest =>
    by_cases hb : b = Config.marker
    · exact .inr ⟨decodePair x, [b, x], rest, by simp, rfl, .inl (by rw [encode_decodePair, hb]), if_pos hb⟩
    · exact .inr ⟨_, [b], x :: rest, by simp, rfl, isItemOf_byte b, if_neg hb⟩

theorem decodeWire_eq_none_iff (bytes : List Byte) : decodeWire bytes = none ↔ bytes = [] := by
  obtain ⟨hnil, hnone⟩ | ⟨i, front, left, hfront, rfl, -, hsome⟩ := decodeWire_cases bytes
  · exact iff_of_true hnone hnil
  · exact iff_of_false (by simp [hsome]) (by simp [hfront])

/-- Settles O5: `decodeWire_cases` names the bytes of the item. -/
theorem wireItemsLoseNoByte : Obligations.WireItemsLoseNoByte := by
  unfold Obligations.WireItemsLoseNoByte
  refine ⟨fun bytes left i hi => ?_, decodeWire_eq_none_iff⟩
  obtain ⟨-, hnone⟩ | ⟨j, front, left', hfront, hbytes, hitem, hsome⟩ := decodeWire_cases bytes
  · rw [hi] at hnone
    cases hnone
  · rw [hi] at hsome
    cases hsome
    exact ⟨front, hfront, hbytes, hitem⟩

end Sys2Proof.Machine
end

section
/-! What an operation can do, said once: a fresh frame, bytes fed, or an answer that writes at most `data`; then the step. -/

namespace Sys2Proof.Machine

/-- Wire bytes fed in order (30_encoding.md R64 FEED). -/
def State.feedAll (s : State) (bytes : List Byte) : State := bytes.foldl State.feed s

@[simp] theorem State.feedAll_nil (s : State) : s.feedAll [] = s := rfl
@[simp] theorem State.feedAll_cons (s : State) (b : Byte) (bytes : List Byte) :
    s.feedAll (b :: bytes) = (s.feed b).feedAll bytes := rfl

theorem State.feedAll_append (s : State) (x y : List Byte) : s.feedAll (x ++ y) = (s.feedAll x).feedAll y :=
  List.foldl_append

/-- FEED is the FILLs of its bytes. -/
theorem execAll_fill (bytes : List Byte) (s : State) : execAll (bytes.map .fill) s = .next (s.feedAll bytes) := by
  induction bytes generalizing s with
  | nil => rfl
  | cons b bytes ih => exact ih (s.feed b)

/-- Execution in sequence, the first part completing. -/
theorem execAll_append {is : List Instr} {s t : State} (h : execAll is s = .next t) (js : List Instr) :
    execAll (is ++ js) s = execAll js t := by
  induction is generalizing s with
  | nil => cases h; rfl
  | cons i is ih =>
    simp only [execAll, List.cons_append] at h ⊢
    rcases hi : exec i s with u | r | r <;> rw [hi] at h
    · exact ih h
    · cases h
    · cases h

theorem State.feedAll_escaped (s : State) (bytes : List Byte) : (s.feedAll bytes).escaped = s.escaped := by
  induction bytes generalizing s with
  | nil => rfl
  | cons b bytes ih => rw [State.feedAll_cons, ih, State.feed_escaped]

/-- A wire item is its bytes fed in order (log entries 4 and 5). -/
theorem exec_of_isItemOf {i : Instr} {bytes : List Byte} (hi : IsItemOf i bytes) (s : State) :
    exec i s = .next (s.feedAll bytes) := by
  obtain henc | ⟨b, rfl, rfl⟩ := hi
  · cases i <;> cases henc <;> rfl
  · rfl

/-- PARSE's outcomes by what it reads of the frame (41_frame_codec.md R100). -/
theorem execParse_of_verified {s : State} {f : Received} (hf : s.received = some f)
    (hv : verify f.payload f.checksum = true) :
    execParse s = .next (({ s with data := f.payload } : State).respond .ok f.length f.payload) := by
  simp [execParse, hf, hv]

theorem execParse_of_unverified {s : State} {f : Received} (hf : s.received = some f)
    (hv : verify f.payload f.checksum = false) : execParse s = .next (s.raise .invalidChecksum f.length) := by
  simp [execParse, hf, hv]

theorem execParse_of_not_received {s : State} (hf : s.received = none) :
    execParse s = .next (s.raise .notReady s.rem) := by
  simp [execParse, hf]

theorem execParse_of_incomplete {s : State} (hrem : s.rem ≠ 0) : execParse s = .next (s.raise .notReady s.rem) :=
  execParse_of_not_received (State.received_of_rem_ne_zero hrem)

/-- An operation that answers once and writes at most `data`, which it keeps within its capacity and writes only with status OK. -/
def AnswersOnce (i : Instr) (s : State) : Prop :=
  ∃ d st n out, exec i s = .next (({ s with data := d } : State).respond st n out)
    ∧ (s.data.length ≤ 65535 → d.length ≤ 65535) ∧ (st ≠ .ok → d = s.data ∧ out = [])

theorem answersOnce_of_respond_ok {i : Instr} {s : State} {n : Nat} {out : List Byte}
    (h : exec i s = .next (s.respond .ok n out)) : AnswersOnce i s :=
  ⟨s.data, .ok, n, out, h, id, fun hne => absurd rfl hne⟩

theorem answersOnce_of_raise {i : Instr} {s : State} {st : Status} {n : Nat}
    (h : exec i s = .next (s.raise st n)) : AnswersOnce i s :=
  ⟨s.data, st, n, [], h, id, fun _ => ⟨rfl, rfl⟩⟩

theorem answersOnce_parse (s : State) : AnswersOnce .parse s := by
  obtain ⟨-, h⟩ | ⟨len, chk, -, hlen, -, ⟨-, h⟩ | ⟨-, h⟩⟩ := execParse_cases s
  · exact answersOnce_of_raise h
  · refine ⟨_, .ok, _, _, h, fun _ => ?_, fun hne => absurd rfl hne⟩
    have := State.declaredLength_le hlen
    rw [List.length_take]
    omega
  · exact answersOnce_of_raise h

theorem answersOnce_put (b : Byte) (s : State) : AnswersOnce (.put b) s := by
  obtain ⟨-, h⟩ | ⟨hne, h⟩ := execPut_cases s b
  · exact answersOnce_of_raise h
  · refine ⟨_, .ok, _, _, h, fun hle => ?_, fun hne => absurd rfl hne⟩
    rw [List.length_append, List.length_singleton]
    omega

/-- Everything an operation can do. -/
theorem exec_cases (i : Instr) (s : State) :
    (∃ e, i = .new e ∧ exec i s = .next ((s.fresh e).respond .ok 0 []))
    ∨ (∃ bytes, IsItemOf i bytes ∧ exec i s = .next (s.feedAll bytes))
    ∨ AnswersOnce i s := by
  cases i with
  | new e => exact .inl ⟨e, rfl, rfl⟩
  | fill b => exact .inr (.inl ⟨[b], .inr ⟨b, rfl, rfl⟩, rfl⟩)
  | wireStart | wireMarker | wirePair _ | wirePair7E | wirePair7D | wirePair11 | wirePair13 =>
    exact .inr (.inl ⟨_, .inl rfl, rfl⟩)
  | parse => exact .inr (.inr (answersOnce_parse s))
  | put b => exact .inr (.inr (answersOnce_put b s))
  | rem | output | csum | verify _ | esc | unesc => exact .inr (.inr (answersOnce_of_respond_ok rfl))

theorem exec_completes (i : Instr) (s : State) : ∃ t, exec i s = .next t := by
  obtain ⟨_, -, h⟩ | ⟨_, -, h⟩ | ⟨_, _, _, _, h, -⟩ := exec_cases i s <;> exact ⟨_, h⟩

/-- Settles O15. -/
theorem newStartsAFreshFrame : Obligations.NewStartsAFreshFrame := by
  unfold Obligations.NewStartsAFreshFrame
  exact fun e s => ⟨_, exec_new e s, rfl, by rw [State.respond_rem, State.fresh_rem]⟩

/-- Settles O16: bytes fed and answers keep the mode. -/
theorem onlyNewWritesEscaped : Obligations.OnlyNewWritesEscaped := by
  unfold Obligations.OnlyNewWritesEscaped
  intro i s t ht hnew
  obtain ⟨e, hi, -⟩ | ⟨bytes, -, h⟩ | ⟨d, st, n, out, h, -⟩ := exec_cases i s
  · exact absurd hi (hnew e)
  · rw [h] at ht
    cases ht
    exact s.feedAll_escaped bytes
  · rw [h] at ht
    cases ht
    rfl

/-! The step, by the oldest input. -/

theorem step_of_command {s : State} {w : CommandWord} {rest : List Input} {i : Instr}
    (hs : s.inputs = .command w :: rest) (hw : decodeCommand w = .ok i) : step s = exec i { s with inputs := rest } := by
  simp [step, fetch, hs, hw]

theorem step_of_reserved {s : State} {w : CommandWord} {rest : List Input} (hs : s.inputs = .command w :: rest)
    (hw : IsReservedWord w) : step s = .next (({ s with inputs := rest } : State).raise .illegalCmd 0) := by
  obtain ⟨_, -, -, hfree⟩ | ⟨r, hr, -⟩ := decodesOrIsReserved w
  · exact absurd hw hfree
  · simp [step, fetch, hs, hr]

theorem step_of_wire {s : State} {bytes left : List Byte} {rest : List Input} {i : Instr}
    (hs : s.inputs = .wire bytes :: rest) (hi : decodeWire bytes = some (i, left)) :
    step s = exec i { s with inputs := remainingInputs left rest } := by
  simp [step, fetch, hs, hi]

theorem step_of_empty_chunk {s : State} {rest : List Input} (hs : s.inputs = .wire [] :: rest) :
    step s = .next { s with inputs := rest } := by
  simp [step, fetch, hs, decodeWire]

theorem step_of_reset {s : State} {rest : List Input} (hs : s.inputs = .reset :: rest) :
    step s = .next (({ s with inputs := rest } : State).fresh false) := by
  simp [step, fetch, hs, Config.escapedAtReset]

theorem step_of_idle {s : State} (hs : s.inputs = []) : step s = .next s := by
  simp [step, fetch, hs]

theorem remainingInputs_eq_ite (left : List Byte) (rest : List Input) :
    remainingInputs left rest = if left = [] then rest else .wire left :: rest := by
  cases left <;> rfl

/-- Settles O6. -/
theorem stepRunsTheDecodedCommand : Obligations.StepRunsTheDecodedCommand := by
  unfold Obligations.StepRunsTheDecodedCommand
  exact fun s w rest i hs hw => step_of_command hs hw

/-- Settles O7. -/
theorem stepRunsTheDecodedWireItem : Obligations.StepRunsTheDecodedWireItem := by
  unfold Obligations.StepRunsTheDecodedWireItem
  intro s bytes left rest i hs hi
  rw [step_of_wire hs hi, remainingInputs_eq_ite]

/-- Settles O8: a reserved word has no decoding to run. -/
theorem reservedWordIsRefused : Obligations.ReservedWordIsRefused := by
  unfold Obligations.ReservedWordIsRefused
  exact fun s w rest hw hs => step_of_reserved hs hw

/-- Settles O9. -/
theorem stepWithoutInstruction : Obligations.StepWithoutInstruction := by
  unfold Obligations.StepWithoutInstruction
  exact ⟨fun s hs => step_of_idle hs, fun s rest hs => step_of_empty_chunk hs⟩

/-- Settles O10. -/
theorem resetEventGivesTheResetValues : Obligations.ResetEventGivesTheResetValues := by
  unfold Obligations.ResetEventGivesTheResetValues
  exact fun s rest hs => step_of_reset hs

/-- Settles O11. -/
theorem resetStateIsAFreshFrame : Obligations.ResetStateIsAFreshFrame := by
  unfold Obligations.ResetStateIsAFreshFrame
  exact ⟨rfl, rfl, rfl, rfl, rfl, rfl, exec_new false State.reset⟩

/-- Settles O12: the header is empty, so `rem` is 3, and the payload is empty. -/
theorem answersAfterReset : Obligations.AnswersAfterReset := by
  unfold Obligations.AnswersAfterReset
  exact ⟨exec_rem _, execParse_of_incomplete (s := State.reset) (by decide), exec_output _, exec_csum _, exec_esc _, exec_unesc _⟩

/-- Settles O14: of the six shapes of a step, two run an instruction, and every instruction completes. -/
theorem everyStepCompletes : Obligations.EveryStepCompletes := by
  unfold Obligations.EveryStepCompletes
  intro s
  obtain ⟨-, h⟩ | ⟨_, -, h⟩ | ⟨_, _, _, -, -, h⟩ | ⟨_, -, h⟩ | ⟨_, rest, i, -, -, h⟩
    | ⟨_, rest, i, left, -, -, h⟩ := step_cases s <;> rw [h]
  · exact ⟨_, rfl⟩
  · exact ⟨_, rfl⟩
  · exact ⟨_, rfl⟩
  · exact ⟨_, rfl⟩
  · exact exec_completes i _
  · exact exec_completes i _

/-! A chunk run to its end. -/

/-- What is presented, replaced. -/
def State.withInputs (s : State) (inputs : List Input) : State := { s with inputs := inputs }

@[simp] theorem State.withInputs_withInputs (s : State) (inputs inputs' : List Input) :
    (s.withInputs inputs).withInputs inputs' = s.withInputs inputs' := rfl

/-- What is still presented has no influence on a byte fed. -/
@[simp] theorem State.feed_withInputs (s : State) (inputs : List Input) (b : Byte) :
    (s.withInputs inputs).feed b = (s.feed b).withInputs inputs := by
  obtain ⟨hrem, h⟩ | ⟨hrem, h⟩ := s.feed_cases b <;> rw [h]
  · exact if_pos hrem
  · exact if_neg hrem

@[simp] theorem State.feedAll_withInputs (s : State) (inputs : List Input) (bytes : List Byte) :
    (s.withInputs inputs).feedAll bytes = (s.feedAll bytes).withInputs inputs := by
  induction bytes generalizing s with
  | nil => rfl
  | cons b bytes ih => rw [State.feedAll_cons, State.feed_withInputs, ih, State.feedAll_cons]

theorem run_succ {M : Host.Core} {s t : M.State} (h : M.step s = .next t) (n : Nat) : M.run (n + 1) s = M.run n t := by
  rw [Host.Core.run, h]

/-- A chunk, run to its end by steps that take one item each, is its bytes fed. -/
theorem run_chunk (bytes : List Byte) (s : State) (rest : List Input) (hs : s.inputs = .wire bytes :: rest) :
    ∃ n, Sys2Proof.core.run n s = .next ((s.feedAll bytes).withInputs rest) := by
  obtain ⟨rfl, -⟩ | ⟨i, front, left, hfront, rfl, hitem, hdec⟩ := decodeWire_cases bytes
  · exact ⟨1, run_succ (M := Sys2Proof.core) (step_of_empty_chunk hs) 0⟩
  · have hstep : step s = .next ((s.feedAll front).withInputs (remainingInputs left rest)) :=
      (step_of_wire hs hdec).trans ((exec_of_isItemOf hitem _).trans
        (congrArg _ (s.feedAll_withInputs (remainingInputs left rest) front)))
    cases left with
    | nil => exact ⟨1, by rw [List.append_nil]; exact run_succ (M := Sys2Proof.core) hstep 0⟩
    | cons x left =>
      have hshorter : (x :: left).length < (front ++ x :: left).length := by
        have := List.length_pos_of_ne_nil hfront
        rw [List.length_append]
        omega
      obtain ⟨n, hn⟩ := run_chunk (x :: left) ((s.feedAll front).withInputs (.wire (x :: left) :: rest)) rest rfl
      refine ⟨n + 1, (run_succ (M := Sys2Proof.core) hstep n).trans (hn.trans ?_)⟩
      rw [State.feedAll_withInputs, State.withInputs_withInputs, State.feedAll_append]
termination_by bytes.length

/-- Settles O13: both sides feed the bytes in order. -/
theorem wireChunkIsFedByteByByte : Obligations.WireChunkIsFedByteByByte := by
  unfold Obligations.WireChunkIsFedByteByByte
  intro s bytes rest hs
  obtain ⟨n, hn⟩ := run_chunk bytes s rest hs
  exact ⟨n, _, hn, (execAll_fill bytes _).trans (congrArg _ (s.feedAll_withInputs rest bytes))⟩

end Sys2Proof.Machine
end

section
/-! FILL and the wire rows: the byte stored, the count moved, and the frame (30_encoding.md R53, 41_frame_codec.md R96 to R99). -/

namespace Sys2Proof.Machine

/-! The derived quantities are functions of the accumulator. -/

theorem State.declaredLength_of_acc_eq {s t : State} (h : t.acc = s.acc) : t.declaredLength = s.declaredLength := by
  rw [State.declaredLength, State.declaredLength, h]

theorem State.rem_of_acc_eq {s t : State} (h : t.acc = s.acc) : t.rem = s.rem := by
  rw [State.rem, State.rem, State.declaredLength_of_acc_eq h, State.accCnt, State.accCnt, h]

theorem State.phase_of_acc_eq {s t : State} (h : t.acc = s.acc) : t.phase = s.phase := by
  rw [State.phase, State.phase, State.rem_of_acc_eq h, State.accCnt, State.accCnt, h]

/-- An incomplete frame consumes a byte as a marker in escaped mode, or stores one byte. -/
theorem State.feed_consumes_or_stores {s : State} (hrem : s.rem ≠ 0) (b : Byte) :
    (s.escaped = true ∧ (s.feed b).acc = s.acc)
    ∨ ∃ c, (s.feed b).acc = s.acc ++ [c] ∧ (s.feed b).escPending = false := by
  rw [State.feed_of_incomplete hrem, State.respond_acc, State.respond_escPending, State.acceptByte_acc,
    State.acceptByte_escPending]
  obtain ⟨-, h⟩ | ⟨-, hmode, -, h⟩ | ⟨-, -, h⟩ := receive_cases s.escaped s.escPending b <;> rw [h]
  · exact .inr ⟨_, rfl, rfl⟩
  · exact .inl ⟨hmode, List.append_nil _⟩
  · exact .inr ⟨_, rfl, rfl⟩

theorem State.feed_of_complete {s : State} (hrem : s.rem = 0) (b : Byte) : s.feed b = s.raise .overrun 0 :=
  if_pos hrem

theorem exec_fill_of_complete {s : State} (hrem : s.rem = 0) (b : Byte) :
    exec (.fill b) s = .next (s.raise .overrun 0) := by
  rw [exec_fill, State.feed_of_complete hrem]

/-- In every state a byte is stored, on an incomplete frame, or leaves the accumulator as it is. -/
theorem State.feed_keeps_or_stores (s : State) (b : Byte) :
    (s.feed b).acc = s.acc ∨ (s.rem ≠ 0 ∧ ∃ c, (s.feed b).acc = s.acc ++ [c]) := by
  by_cases hrem : s.rem = 0
  · exact .inl (by rw [State.feed_of_complete hrem]; rfl)
  · obtain ⟨-, hacc⟩ | ⟨c, hacc, -⟩ := State.feed_consumes_or_stores hrem b
    · exact .inl hacc
    · exact .inr ⟨hrem, c, hacc⟩

/-- A stored byte lowers the remaining count by 1, but for the second length byte. -/
theorem State.rem_of_stored {s t : State} {c : Byte} (hacc : t.acc = s.acc ++ [c]) (hrem : s.rem ≠ 0)
    (hcnt : s.accCnt ≠ 2) : t.rem + 1 = s.rem := by
  have ht : t.accCnt = s.accCnt + 1 := by simp [State.accCnt, hacc]
  rcases hlen : s.declaredLength with _ | len
  · have hlt := s.declaredLength_eq_none_iff.mp hlen
    have ht' := State.rem_of_header (t.declaredLength_eq_none_iff.mpr (by omega))
    have hs' := State.rem_of_header hlen
    omega
  · have h3 : 3 ≤ s.accCnt := State.three_le_of_declaredLength hlen
    have hs' := State.rem_of_declaredLength hlen
    have ht' := State.rem_of_declaredLength (State.declaredLength_append hacc hlen)
    omega

/-- With the second length byte the count jumps from 1 to `L + 1`. -/
theorem State.rem_of_header_completed {s t : State} {c : Byte} (hacc : t.acc = s.acc ++ [c]) (hcnt : s.accCnt = 2) :
    s.rem = 1 ∧ ∃ len, t.declaredLength = some len ∧ t.rem = len + 1 := by
  have ht : t.accCnt = 3 := by simpa [State.accCnt, hacc] using hcnt
  refine ⟨?_, ?_⟩
  · have := State.rem_of_header (s.declaredLength_eq_none_iff.mpr (by omega))
    omega
  · rcases hlen : t.declaredLength with _ | len
    · have := t.declaredLength_eq_none_iff.mp hlen
      omega
    · have := State.rem_of_declaredLength hlen
      exact ⟨len, rfl, by omega⟩

/-- Settles O23: the count is a function of `acc`, to which an accepted byte adds one byte or none. -/
theorem fillMovesTheCount : Obligations.FillMovesTheCount := by
  unfold Obligations.FillMovesTheCount
  intro s t b hrem ht
  cases ht
  obtain ⟨-, hacc⟩ | ⟨c, hacc, -⟩ := State.feed_consumes_or_stores hrem b
  · have hcnt : (s.feed b).accCnt = s.accCnt := by rw [State.accCnt, hacc, State.accCnt]
    exact ⟨fun _ => State.rem_of_acc_eq hacc, fun h => absurd hcnt h, fun h => absurd hcnt h⟩
  · have hcnt : (s.feed b).accCnt ≠ s.accCnt := by simp [State.accCnt, hacc]
    exact ⟨fun h => absurd h hcnt, fun _ hne => State.rem_of_stored hacc hrem hne,
      fun _ h2 => State.rem_of_header_completed hacc h2⟩

/-- Settles O22. -/
theorem fillOnACompleteFrameIsOverrun : Obligations.FillOnACompleteFrameIsOverrun := by
  unfold Obligations.FillOnACompleteFrameIsOverrun
  exact fun s b hrem => exec_fill_of_complete hrem b

/-! What bytes fed leave unchanged. -/

@[simp] theorem State.feedAll_data (s : State) (bytes : List Byte) : (s.feedAll bytes).data = s.data := by
  induction bytes generalizing s with
  | nil => rfl
  | cons b bytes ih => rw [State.feedAll_cons, ih, State.feed_data]

@[simp] theorem State.feedAll_inputs (s : State) (bytes : List Byte) : (s.feedAll bytes).inputs = s.inputs := by
  induction bytes generalizing s with
  | nil => rfl
  | cons b bytes ih => rw [State.feedAll_cons, ih, State.feed_inputs]

theorem State.feedAll_acc (s : State) (bytes : List Byte) :
    ∃ more, (s.feedAll bytes).acc = s.acc ++ more ∧ more.length ≤ bytes.length := by
  induction bytes generalizing s with
  | nil => exact ⟨[], (List.append_nil _).symm, Nat.le_refl 0⟩
  | cons b bytes ih =>
    obtain ⟨first, hfirst, hle⟩ := s.feed_acc b
    obtain ⟨more, hmore, hle'⟩ := ih (s.feed b)
    refine ⟨first ++ more, by rw [State.feedAll_cons, hmore, hfirst, List.append_assoc], ?_⟩
    rw [List.length_append, List.length_cons]
    omega

theorem getElem?_append_outside {l more : List Byte} {n a : Nat} (hn : more.length ≤ n)
    (ha : a < l.length ∨ l.length + n ≤ a) : (l ++ more)[a]? = l[a]? := by
  obtain hlt | hge := ha
  · exact List.getElem?_append_left hlt
  · rw [List.getElem?_eq_none (by rw [List.length_append]; omega), List.getElem?_eq_none (by omega)]

/-- Bytes fed write the accumulator at most from its count on, one index for each byte. -/
theorem State.feedAll_memRead_acc (s : State) (bytes : List Byte) {a : Nat}
    (ha : a < s.accCnt ∨ s.accCnt + bytes.length ≤ a) : (s.feedAll bytes).memRead .acc a = s.memRead .acc a := by
  obtain ⟨more, hmore, hle⟩ := s.feedAll_acc bytes
  rw [State.memRead_acc, State.memRead_acc, hmore, getElem?_append_outside hle ha]

theorem State.feedAll_eq_update (s : State) (bytes : List Byte) :
    s.feedAll bytes = { s with
      acc := (s.feedAll bytes).acc
      escPending := (s.feedAll bytes).escPending
      responses := (s.feedAll bytes).responses } := by
  rw [← s.feedAll_escaped bytes, ← s.feedAll_data bytes, ← s.feedAll_inputs bytes]

/-- An incomplete frame answers a byte with the remaining count after it. -/
theorem State.feed_responses {s : State} (hrem : s.rem ≠ 0) (b : Byte) :
    (s.feed b).responses
      = s.responses ++ [{ status := .ok, value := BitVec.ofNat 18 (s.feed b).rem, out := [] }] := by
  rw [State.feed_of_incomplete hrem, State.respond_responses, State.acceptByte_responses, State.respond_rem]

/-- Settles O21: the frame is that of one byte fed. -/
theorem fillAnswersTheNewCount : Obligations.FillAnswersTheNewCount := by
  unfold Obligations.FillAnswersTheNewCount
  intro s b hrem
  refine ⟨s.feed b, BitVec.ofNat 18 (s.feed b).rem, exec_fill b s, State.toNat_ofNat_rem _, ?_, fun a ha => ?_,
    fun a => ?_⟩
  · rw [← State.feed_responses hrem b]
    exact s.feedAll_eq_update [b]
  · exact s.feedAll_memRead_acc [b] (by rw [List.length_singleton]; omega)
  · rw [State.memRead_data, State.feed_data, State.memRead_data]

/-! The wire rows. -/

/-- Settles O49: a wire row is an item of its own bytes. -/
theorem wireRowsAreTheirBytesFed : Obligations.WireRowsAreTheirBytesFed := by
  unfold Obligations.WireRowsAreTheirBytesFed
  exact fun i bytes henc s => ⟨s.feedAll bytes, exec_of_isItemOf (.inl henc) s, execAll_fill bytes s⟩

/-- Settles O50: the frame of its bytes fed. -/
theorem wireRowFrame : Obligations.WireRowFrame := by
  unfold Obligations.WireRowFrame
  intro i bytes s t henc ht
  rw [exec_of_isItemOf (.inl henc) s] at ht
  cases ht
  exact ⟨s.feedAll_eq_update bytes, fun a ha => s.feedAll_memRead_acc bytes ha,
    fun a => by rw [State.memRead_data, State.feedAll_data, State.memRead_data]⟩

/-- What an incomplete frame is after one byte, by what the receiver makes of the byte. -/
theorem State.feed_eq_of_receive {s : State} (hrem : s.rem ≠ 0) {b : Byte} {pending : Bool} {stored : Option Byte}
    (hb : receive s.escaped s.escPending b = (pending, stored)) :
    s.feed b = { s with
      escPending := pending
      acc := s.acc ++ stored.toList
      responses := s.responses ++ [{ status := .ok, value := BitVec.ofNat 18 (s.feed b).rem, out := [] }] } := by
  rw [← State.feed_responses hrem b, State.feed_of_incomplete hrem]
  simp only [State.respond, State.acceptByte, hb]

/-- Settles O46: 0x7E is no marker, so it is stored in every mode. -/
theorem wireStartIsStoredAsData : Obligations.WireStartIsStoredAsData := by
  unfold Obligations.WireStartIsStoredAsData
  intro s hrem
  have hb : receive s.escaped s.escPending 0x7E = (false, some (if s.escPending then 0x5E else 0x7E)) := by
    cases s.escaped <;> cases s.escPending <;> decide
  exact ⟨_, _, exec_wireStart s, State.toNat_ofNat_rem _, State.feed_eq_of_receive hrem hb⟩

/-- Settles O47: the marker by the mode and the pending flag. -/
theorem wireMarkerIsConsumedOrStored : Obligations.WireMarkerIsConsumedOrStored := by
  unfold Obligations.WireMarkerIsConsumedOrStored
  intro s hrem
  have hb : receive s.escaped s.escPending 0x7D = (s.escaped && !s.escPending,
      if s.escPending then some 0x5D else if s.escaped then none else some 0x7D) := by
    cases s.escaped <;> cases s.escPending <;> decide
  refine ⟨_, _, exec_wireMarker s, State.toNat_ofNat_rem _, (State.feed_eq_of_receive hrem hb).trans ?_⟩
  cases s.escaped <;> cases s.escPending <;> rfl

/-- A marker and the byte after it, on an incomplete frame: consumed, then stored. -/
theorem State.feed_pair {s : State} (hmode : s.escaped = true) (hpend : s.escPending = false) (hrem : s.rem ≠ 0)
    (x : Byte) : ∃ v v' : Value, v.toNat = s.rem ∧ v'.toNat = ((s.feed 0x7D).feed x).rem
      ∧ (s.feed 0x7D).feed x = { s with
          acc := s.acc ++ [x ^^^ 0x20]
          responses := s.responses
            ++ [{ status := .ok, value := v, out := [] }, { status := .ok, value := v', out := [] }] } := by
  have hb : receive s.escaped s.escPending 0x7D = (true, none) := by rw [hmode, hpend]; exact receive_marker
  have hmarker := State.feed_eq_of_receive hrem hb
  have hacc : (s.feed 0x7D).acc = s.acc := by rw [hmarker]; exact List.append_nil _
  have hkeeps := State.rem_of_acc_eq hacc
  have hx : receive (s.feed 0x7D).escaped (s.feed 0x7D).escPending x = (false, some (x ^^^ 0x20)) := by
    rw [hmarker]
    exact receive_of_pending _ x
  have hstored := State.feed_eq_of_receive (hkeeps ▸ hrem) hx
  refine ⟨BitVec.ofNat 18 s.rem, _, State.toNat_ofNat_rem s, State.toNat_ofNat_rem _, hstored.trans ?_⟩
  rw [hkeeps] at hmarker
  rw [hmarker]
  simp [hpend]

/-- Settles O48: the four transmitted pairs are pairs whose second byte is the byte XOR 0x20. -/
theorem escapePairIsStoredAsOneByte : Obligations.EscapePairIsStoredAsOneByte := by
  unfold Obligations.EscapePairIsStoredAsOneByte
  intro i b hi s hmode hpend hrem
  obtain ⟨x, hexec, rfl⟩ : ∃ x : Byte, exec i s = .next ((s.feed 0x7D).feed x) ∧ b = x ^^^ 0x20 := by
    obtain ⟨x, rfl, rfl⟩ | ⟨rfl, rfl⟩ | ⟨rfl, rfl⟩ | ⟨rfl, rfl⟩ | ⟨rfl, rfl⟩ := hi
    · exact ⟨x, exec_wirePair x s, rfl⟩
    · exact ⟨0x5E, exec_wirePair7E s, by decide⟩
    · exact ⟨0x5D, exec_wirePair7D s, by decide⟩
    · exact ⟨0x31, exec_wirePair11 s, by decide⟩
    · exact ⟨0x33, exec_wirePair13 s, by decide⟩
  obtain ⟨v, v', hv, hv', ht⟩ := State.feed_pair hmode hpend hrem x
  exact ⟨_, v, v', hexec, hv, hv', ht⟩

end Sys2Proof.Machine
end

section
/-! PARSE: a function of the accumulator from its second byte on, whose outcomes keep everything but `data` (41_frame_codec.md R98 to R102). -/

namespace Sys2Proof.Machine

/-- The outcomes of PARSE by what it reads of the frame: nothing, a verified payload, or one that does not verify. -/
theorem execParse_by_received (s : State) :
    (s.received = none ∧ execParse s = .next (s.raise .notReady s.rem))
    ∨ (∃ f, s.received = some f ∧ verify f.payload f.checksum = true
      ∧ execParse s = .next (({ s with data := f.payload } : State).respond .ok f.length f.payload))
    ∨ ∃ f, s.received = some f ∧ verify f.payload f.checksum = false
      ∧ execParse s = .next (s.raise .invalidChecksum f.length) := by
  rcases hf : s.received with _ | f
  · exact .inl ⟨rfl, execParse_of_not_received hf⟩
  · cases hv : verify f.payload f.checksum
    · exact .inr (.inr ⟨f, rfl, hv, execParse_of_unverified hf hv⟩)
    · exact .inr (.inl ⟨f, rfl, hv, execParse_of_verified hf hv⟩)

/-- Only a complete frame can be read. -/
theorem State.rem_zero_of_received {s : State} {f : Received} (hf : s.received = some f) : s.rem = 0 := by
  by_contra hrem
  rw [State.received_of_rem_ne_zero hrem] at hf
  cases hf

/-- What a complete frame holds, from its bytes (20_memory.md R32). -/
theorem State.received_of_acc {s : State} {start msb lsb chk : Byte} {p : List Byte}
    (hacc : s.acc = [start, msb, lsb] ++ p ++ [chk]) (hlen : p.length = lengthOfBytes msb lsb) :
    s.received = some { length := p.length, payload := p, checksum := chk } := by
  have hdecl : s.declaredLength = some p.length := by rw [hlen, State.declaredLength, hacc]; rfl
  have hchk : s.acc[3 + p.length]? = some chk := by simp [hacc, Nat.add_comm 3]
  have hpayload : (s.acc.drop 3).take p.length = p := by simp [hacc]
  simp [State.received, hdecl, hchk, hpayload]

/-- Settles O24: what the frame holds verifies. -/
theorem parseDeliversTheVerifiedPayload : Obligations.ParseDeliversTheVerifiedPayload := by
  unfold Obligations.ParseDeliversTheVerifiedPayload
  intro s start msb lsb chk p hacc hlen hsum
  exact execParse_of_verified (State.received_of_acc hacc hlen) ((verify_eq_true_iff_sum p chk).mpr hsum)

/-- Settles O25: what the frame holds does not verify. -/
theorem parseReportsAnInvalidChecksum : Obligations.ParseReportsAnInvalidChecksum := by
  unfold Obligations.ParseReportsAnInvalidChecksum
  intro s start msb lsb chk p hacc hlen hsum
  have hv : verify p chk = false := Bool.eq_false_iff.mpr (mt (verify_eq_true_iff_sum p chk).mp hsum)
  exact execParse_of_unverified (State.received_of_acc hacc hlen) hv

/-- Settles O26: an incomplete frame holds nothing to read. -/
theorem parseOfAnIncompleteFrameIsNotReady : Obligations.ParseOfAnIncompleteFrameIsNotReady := by
  unfold Obligations.ParseOfAnIncompleteFrameIsNotReady
  exact fun s hrem => ⟨BitVec.ofNat 18 s.rem, s.toNat_ofNat_rem, execParse_of_incomplete hrem⟩

/-- Settles O27: the frame of the empty payload, on which exactly 0xFF verifies. -/
theorem parseOfTheEmptyFrame : Obligations.ParseOfTheEmptyFrame := by
  unfold Obligations.ParseOfTheEmptyFrame
  intro s start chk hacc
  have hf : s.received = some { length := 0, payload := [], checksum := chk } :=
    State.received_of_acc (p := []) hacc rfl
  have hv : verify [] chk = true ↔ chk = 0xFF := verifyAcceptsExactlyTheChecksum.2.1 chk
  refine ⟨State.rem_zero_of_received hf, hv, fun hchk => ?_, fun hchk => ?_⟩
  · exact execParse_of_verified hf (hv.mpr hchk)
  · have hbad : verify [] chk = false := Bool.eq_false_iff.mpr (mt hv.mp hchk)
    exact execParse_of_unverified hf hbad

/-- Settles O28: PARSE keeps the accumulator, and its response is a function of the accumulator. -/
theorem parseIsRepeatable : Obligations.ParseIsRepeatable := by
  unfold Obligations.ParseIsRepeatable
  intro s t ht
  rw [exec_parse] at ht
  simp only [exec_parse]
  obtain ⟨hf, h⟩ | ⟨f, hf, hv, h⟩ | ⟨f, hf, hv, h⟩ := execParse_by_received s <;> rw [h] at ht <;> cases ht
  · exact ⟨_, rfl, execParse_of_not_received hf⟩
  · exact ⟨_, rfl, execParse_of_verified hf hv⟩
  · exact ⟨_, rfl, execParse_of_unverified hf hv⟩

/-- The first byte has no influence on the declared length. -/
theorem State.declaredLength_cons {s t : State} {b b' : Byte} {rest : List Byte} (hs : s.acc = b :: rest)
    (ht : t.acc = b' :: rest) : t.declaredLength = s.declaredLength := by
  rw [State.declaredLength, State.declaredLength, hs, ht]
  rcases rest with _ | ⟨msb, _ | ⟨lsb, body⟩⟩ <;> rfl

/-- The first byte has no influence on what PARSE reads of the frame. -/
theorem State.received_cons {s t : State} {b b' : Byte} {rest : List Byte} (hs : s.acc = b :: rest)
    (ht : t.acc = b' :: rest) : t.received = s.received := by
  have hread : ∀ len, t.memRead .acc (3 + len) = s.memRead .acc (3 + len) := by
    intro len
    rw [State.memRead_acc, State.memRead_acc, hs, ht, Nat.add_comm]
    rfl
  simp only [State.received, State.declaredLength_cons hs ht, hread, hs, ht, List.drop_succ_cons]

theorem State.rem_cons {s t : State} {b b' : Byte} {rest : List Byte} (hs : s.acc = b :: rest)
    (ht : t.acc = b' :: rest) : t.rem = s.rem := by
  rw [State.rem, State.rem, State.declaredLength_cons hs ht, State.accCnt, State.accCnt, hs, ht, List.length_cons,
    List.length_cons]

/-- Settles O29: neither what PARSE reads of the frame nor the remaining count sees the first byte. -/
theorem startByteIsNeverChecked : Obligations.StartByteIsNeverChecked := by
  unfold Obligations.StartByteIsNeverChecked
  intro s t b b' rest hacc ht
  rw [exec_parse] at ht ⊢
  have hreceived : ({ s with acc := b' :: rest } : State).received = s.received := State.received_cons hacc rfl
  have hrem : ({ s with acc := b' :: rest } : State).rem = s.rem := State.rem_cons hacc rfl
  obtain ⟨hf, h⟩ | ⟨f, hf, hv, h⟩ | ⟨f, hf, hv, h⟩ := execParse_by_received s <;> rw [h] at ht <;> cases ht
  · rw [execParse_of_not_received (hreceived.trans hf), hrem]
    rfl
  · exact execParse_of_verified (hreceived.trans hf) hv
  · exact execParse_of_unverified (hreceived.trans hf) hv

/-- The payload PARSE delivers, index by index (20_memory.md R32). -/
theorem getElem?_take_drop_three (acc : List Byte) (len a : Nat) :
    ((acc.drop 3).take len)[a]? = if a < len then acc[3 + a]? else none := by
  rw [List.getElem?_take, List.getElem?_drop]

/-- Settles O30: the three outcomes of PARSE; the answered length is at most 65535, so the 18 bits of the value hold it. -/
theorem parseWritesOnlyData : Obligations.ParseWritesOnlyData := by
  unfold Obligations.ParseWritesOnlyData
  intro s t ht
  rw [exec_parse] at ht
  obtain ⟨-, h⟩ | ⟨len, chk, -, hlen, -, ⟨-, h⟩ | ⟨-, h⟩⟩ := execParse_cases s <;> rw [h] at ht <;> cases ht
  · exact ⟨rfl, fun _ => rfl, _, rfl, fun _ => ⟨rfl, fun _ => rfl⟩, fun hok => by cases hok⟩
  · refine ⟨rfl, fun _ => rfl, _, rfl, fun hne => absurd rfl hne, fun _ a => ?_⟩
    have hvalue : (BitVec.ofNat 18 len).toNat = len := by
      have := State.declaredLength_le hlen
      rw [BitVec.toNat_ofNat]
      omega
    rw [hvalue, State.memRead_data, State.memRead_acc, State.respond_data]
    exact getElem?_take_drop_three s.acc len a
  · exact ⟨rfl, fun _ => rfl, _, rfl, fun _ => ⟨rfl, fun _ => rfl⟩, fun hok => by cases hok⟩

end Sys2Proof.Machine
end

section
/-! PUT and OUTPUT (41_frame_codec.md R103, R108). -/

namespace Sys2Proof.Machine

theorem execPut_of_room {s : State} (hroom : s.dataLen ≠ 65535) (b : Byte) :
    execPut b s = .next (({ s with data := s.data ++ [b] } : State).respond .ok (s.dataLen + 1) []) :=
  if_neg hroom

theorem execPut_of_full {s : State} (hfull : s.dataLen = 65535) (b : Byte) :
    execPut b s = .next (s.raise .dataFull 65535) :=
  if_pos hfull

/-- Settles O31: the byte goes to index `data_len`, and no other index is touched. -/
theorem putAppendsOneByte : Obligations.PutAppendsOneByte := by
  unfold Obligations.PutAppendsOneByte
  intro s b hroom
  refine ⟨_, BitVec.ofNat 18 (s.dataLen + 1), execPut_of_room (Nat.ne_of_lt hroom) b, ?_, rfl, fun a ha => ?_,
    fun _ => rfl⟩
  · rw [BitVec.toNat_ofNat, State.dataLen]
    simp only [State.dataLen] at hroom
    omega
  · exact getElem?_append_outside (n := 1) (Nat.le_refl 1) (by simp only [State.dataLen] at ha; omega)

/-- Settles O32. -/
theorem putOnAFullPayloadIsRefused : Obligations.PutOnAFullPayloadIsRefused := by
  unfold Obligations.PutOnAFullPayloadIsRefused
  exact fun s b hfull => execPut_of_full hfull b

theorem length_frameBody (p : List Byte) : (frameBody p).length = p.length + 3 := by
  simp [frameBody]

theorem length_frameBytes (e : Bool) (p : List Byte) :
    (frameBytes e p).length = p.length + 4 + if e then (frameBody p).countP isSpecial else 0 := by
  cases e
  · simp [frameBytes, length_frameBody]
  · simp only [frameBytes, if_true, List.length_cons, length_escape, length_frameBody]
    omega

/-- The longest payload has two length bytes 0xFF, which are not special. -/
theorem length_add_countP_frameBody_le {p : List Byte} (hp : p.length ≤ 65535) :
    p.length + (frameBody p).countP isSpecial ≤ 131071 := by
  by_cases hmax : p.length = 65535
  · have hheader : [lenMsb p.length, lenLsb p.length].countP isSpecial = 0 := by rw [hmax]; decide
    have hrest : (p ++ [checksum p]).countP isSpecial ≤ (p ++ [checksum p]).length := List.countP_le_length
    rw [frameBody, List.append_assoc, List.countP_append, hheader]
    rw [List.length_append, List.length_singleton] at hrest
    omega
  · have hall : (frameBody p).countP isSpecial ≤ (frameBody p).length := List.countP_le_length
    rw [length_frameBody] at hall
    omega

theorem length_frameBytes_le (e : Bool) {p : List Byte} (hp : p.length ≤ 65535) : (frameBytes e p).length ≤ 131075 := by
  have hcount := length_add_countP_frameBody_le hp
  rw [length_frameBytes]
  split <;> omega

theorem checksum_completes_sum (p : List Byte) : ((p.map BitVec.toNat).sum + (checksum p).toNat) % 256 = 255 :=
  (verify_eq_true_iff_sum p _).mp ((verify_eq_true_iff_checksum p _).mpr rfl)

/-- Settles O33: OUTPUT's bytes are `frameBytes`, whose length fits the 18 bits of the value. -/
theorem outputIsTheWireFrame : Obligations.OutputIsTheWireFrame := by
  unfold Obligations.OutputIsTheWireFrame
  intro s hs
  have hle := length_frameBytes_le s.escaped hs
  refine ⟨lenMsb s.dataLen, lenLsb s.dataLen, checksum s.data, BitVec.ofNat 18 (frameBytes s.escaped s.data).length,
    frameBytes s.escaped s.data, exec_output s, rfl, lengthOfBytes_of_length hs, checksum_completes_sum s.data, ?_, hle,
    length_frameBytes s.escaped s.data⟩
  rw [BitVec.toNat_ofNat]
  omega

end Sys2Proof.Machine
end

section
/-! Laws of the checksum (40_primitives.md R72). -/

namespace Sys2Proof.Machine

theorem sum8_concat (p : List Byte) (b : Byte) : sum8 (p ++ [b]) = add8 (sum8 p) b := by
  rw [sum8, List.foldl_append]
  rfl

theorem sum8_append (p q : List Byte) : sum8 (p ++ q) = add8 (sum8 p) (sum8 q) := by
  apply BitVec.eq_of_toNat_eq
  rw [toNat_add8, toNat_sum8, toNat_sum8, toNat_sum8, List.map_append, List.sum_append, ← Nat.add_mod]

/-- Settles O36: the sum of a concatenation is the sum of the sums. -/
theorem runningSumIsTheSumModulo256 : Obligations.RunningSumIsTheSumModulo256 := by
  unfold Obligations.RunningSumIsTheSumModulo256
  exact ⟨sum8_concat, toNat_sum8, fun p q => by rw [checksum_eq_sub, sum8_append]⟩

/-- One byte of a sequence is determined by the sum and the other bytes. -/
theorem eq_of_sum8_eq {p q : List Byte} {b b' : Byte} (h : sum8 (p ++ b :: q) = sum8 (p ++ b' :: q)) : b = b' := by
  have hcons : ∀ c : Byte, sum8 (p ++ c :: q) = sum8 p + (c + sum8 q) := by
    intro c
    rw [← List.singleton_append, sum8_append, sum8_append]
    have hone : sum8 [c] = c := BitVec.zero_add c
    rw [hone]
    rfl
  rw [hcons, hcons] at h
  exact add_right_cancel (add_left_cancel h)

theorem verify_eq_false_of_ne_checksum {p : List Byte} {chk : Byte} (h : chk ≠ checksum p) : verify p chk = false :=
  Bool.eq_false_iff.mpr (mt (verify_eq_true_iff_checksum p chk).mp h)

/-- Settles O37: two payloads with the same checksum have the same sum, and a payload has one valid checksum. -/
theorem singleChangeIsDetected : Obligations.SingleChangeIsDetected := by
  unfold Obligations.SingleChangeIsDetected
  refine ⟨fun p q b b' chk hne hv => verify_eq_false_of_ne_checksum fun hv' => ?_,
    fun p chk chk' hne hv => verify_eq_false_of_ne_checksum fun hv' => ?_⟩
  · rw [(verify_eq_true_iff_checksum _ chk).mp hv, checksum_eq_sub, checksum_eq_sub, sub_right_inj] at hv'
    exact hne (eq_of_sum8_eq hv').symm
  · exact hne (hv'.trans ((verify_eq_true_iff_checksum p chk).mp hv).symm)

end Sys2Proof.Machine
end

section
/-! Laws of escaping (40_primitives.md R77, R78). -/

namespace Sys2Proof.Machine

/-- The pair of a special byte and the bare other byte are undone alike. -/
theorem unescape_escByte (b : Byte) : unescape (escByte b) = ([b], false) := by
  rw [escByte_eq_ite]
  split
  case isTrue =>
    simp only [unescape, unescapeFrom, unescStep_marker, unescStep_of_pending, xor_escXor_twice]
    rfl
  case isFalse hb =>
    have hne : b ≠ 0x7D := fun h => hb ((isSpecial_iff b).mpr (.inr (.inl h)))
    simp only [unescape, unescapeFrom, unescStep_of_ne_marker hne]
    rfl

/-- Where no marker is pending, unescaping starts afresh. -/
theorem unescape_append {x a : List Byte} (hx : unescape x = (a, false)) (y : List Byte) :
    unescape (x ++ y) = (a ++ (unescape y).1, (unescape y).2) := by
  rw [unescape, unescapeFrom_append, ← unescape, hx]
  rfl

theorem unescape_escape (x : List Byte) : unescape (escape x) = (x, false) := by
  induction x with
  | nil => rfl
  | cons b x ih => rw [escape_cons, unescape_append (unescape_escByte b), ih, List.singleton_append]

/-- Settles O41: a function with a left inverse is injective. -/
theorem unescapeUndoesEscape : Obligations.UnescapeUndoesEscape := by
  unfold Obligations.UnescapeUndoesEscape
  refine ⟨unescape_escape, fun x y h => ?_⟩
  have hxy : (x, false) = (y, false) := by rw [← unescape_escape x, ← unescape_escape y, h]
  exact congrArg Prod.fst hxy

theorem escByte_free_of_controls {b c : Byte} (hc : c ∈ escByte b) : c ≠ 0x7E ∧ c ≠ 0x11 ∧ c ≠ 0x13 := by
  rw [escByte_eq_ite] at hc
  split at hc
  case isTrue hb =>
    obtain rfl | rfl | rfl | rfl := (isSpecial_iff b).mp hb <;> revert c <;> decide
  case isFalse hb =>
    rw [List.mem_singleton.mp hc]
    rw [isSpecial_iff] at hb
    tauto

theorem escape_free_of_controls {x : List Byte} {c : Byte} (hc : c ∈ escape x) : c ≠ 0x7E ∧ c ≠ 0x11 ∧ c ≠ 0x13 := by
  obtain ⟨b, -, hb⟩ := List.mem_flatMap.mp hc
  exact escByte_free_of_controls hb

theorem xor_escXor_ne_marker {b : Byte} (hb : isSpecial b = true) : b ^^^ 0x20 ≠ 0x7D := by
  obtain rfl | rfl | rfl | rfl := (isSpecial_iff b).mp hb <;> decide

/-- A marker in an escaped sequence is the first byte of the pair of a special byte, between whole escapes. By induction on the
sequence: the marker is in the first byte's escape, where only the first position can hold it, or in the rest. -/
theorem escape_eq_append_marker {x u v : List Byte} (h : escape x = u ++ 0x7D :: v) :
    ∃ (y z : List Byte) (d : Byte), isSpecial d = true ∧ x = y ++ d :: z
      ∧ u = escape y ∧ v = (d ^^^ 0x20) :: escape z := by
  induction x generalizing u with
  | nil => simp [escape] at h
  | cons b x ih =>
    have inRest : ∀ u', u = escByte b ++ u' → escape x = u' ++ 0x7D :: v →
        ∃ (y z : List Byte) (d : Byte), isSpecial d = true ∧ b :: x = y ++ d :: z
          ∧ u = escape y ∧ v = (d ^^^ 0x20) :: escape z := by
      intro u' hu h'
      obtain ⟨y, z, d, hd, hx, hy, hv⟩ := ih h'
      exact ⟨b :: y, z, d, hd, by rw [hx, List.cons_append], by rw [escape_cons, hu, hy], hv⟩
    rw [escape_cons, escByte_eq_ite] at h
    rw [escByte_eq_ite] at inRest
    split at h
    case isTrue hb =>
      rw [if_pos hb] at inRest
      match u with
      | [] =>
        obtain ⟨-, rfl⟩ := List.cons.inj h
        exact ⟨[], x, b, hb, rfl, rfl, rfl⟩
      | [c] =>
        obtain ⟨-, hpair⟩ := List.cons.inj h
        obtain ⟨hmarker, -⟩ := List.cons.inj hpair
        exact absurd hmarker (xor_escXor_ne_marker hb)
      | c :: c' :: u' =>
        obtain ⟨rfl, hpair⟩ := List.cons.inj h
        obtain ⟨rfl, hrest⟩ := List.cons.inj hpair
        exact inRest u' rfl hrest
    case isFalse hb =>
      rw [if_neg hb] at inRest
      match u with
      | [] =>
        obtain ⟨hmarker, -⟩ := List.cons.inj h
        exact absurd ((isSpecial_iff b).mpr (.inr (.inl hmarker))) hb
      | c :: u' =>
        obtain ⟨rfl, hrest⟩ := List.cons.inj h
        exact inRest u' rfl hrest

/-- Settles O42: escape works byte by byte, and `escape_eq_append_marker` locates each marker. -/
theorem escapeAndUnescapeInPieces : Obligations.EscapeAndUnescapeInPieces := by
  unfold Obligations.EscapeAndUnescapeInPieces
  refine ⟨escape_append, fun x y a hx => unescape_append hx y, ?_, fun x c hc => escape_free_of_controls hc,
    fun x u v h => escape_eq_append_marker h⟩
  rintro x z rfl
  rw [unescape_escape]

end Sys2Proof.Machine
end

section
/-! CSUM, VERIFY, ESC and UNESC (40_primitives.md R80 to R84). -/

namespace Sys2Proof.Machine

/-- Settles O43: both values fit the 18 bits. -/
theorem csumAndVerifyAnswerFromData : Obligations.CsumAndVerifyAnswerFromData := by
  unfold Obligations.CsumAndVerifyAnswerFromData
  refine ⟨fun s => ⟨_, exec_csum s, ?_⟩, fun s c => ⟨_, exec_verify c s, ?_⟩⟩
  · have hbyte := (checksum s.data).isLt
    rw [BitVec.toNat_ofNat, ← toNat_checksum]
    omega
  · by_cases hv : verify s.data c = true
    · rw [if_pos hv, if_pos ((verify_eq_true_iff_sum s.data c).mp hv)]
      rfl
    · rw [if_neg hv, if_neg (mt (verify_eq_true_iff_sum s.data c).mpr hv)]
      rfl

/-- One byte more is unescaped by one step from the flag the bytes before it end with. -/
theorem unescape_concat (x : List Byte) (b : Byte) : unescape (x ++ [b])
    = ((unescape x).1 ++ (unescStep (unescape x).2 b).2.toList, (unescStep (unescape x).2 b).1) := by
  rw [unescape, unescapeFrom_append]
  simp [unescapeFrom, unescape]

/-- Settles O44: the answers by the arms of `exec`, the unescaped bytes by the three cases of `unesc_step`. -/
theorem escAndUnescAnswerFromData : Obligations.EscAndUnescAnswerFromData := by
  unfold Obligations.EscAndUnescAnswerFromData
  refine ⟨fun s hs => ⟨⟨_, exec_esc s, ?_⟩, _, exec_unesc s, ?_⟩, rfl, fun x b => ⟨fun hx => ?_, fun hx hb => ?_,
    fun hx hb => ?_⟩, by decide, by decide, by decide⟩
  · have hcount : s.data.countP isSpecial ≤ s.data.length := List.countP_le_length
    rw [BitVec.toNat_ofNat, length_escape]
    simp only [State.dataLen] at hs
    omega
  · split <;> rfl
  · rw [unescape_concat, hx, unescStep_of_pending]
    rfl
  · rw [unescape_concat, hx, hb, unescStep_marker]
    simp
  · rw [unescape_concat, hx, unescStep_of_ne_marker hb]
    rfl

/-- Settles O45: each of the four responses is written in terms of `data` alone. -/
theorem primitivesSeeOnlyData : Obligations.PrimitivesSeeOnlyData := by
  unfold Obligations.PrimitivesSeeOnlyData
  intro i s s' t t' hi hdata ht ht'
  obtain ⟨st, n, out, hs, hs'⟩ : ∃ st n out,
      exec i s = .next (s.respond st n out) ∧ exec i s' = .next (s'.respond st n out) := by
    obtain rfl | ⟨c, rfl⟩ | rfl | rfl := hi
    · exact ⟨_, _, _, exec_csum s, hdata ▸ exec_csum s'⟩
    · exact ⟨_, _, _, exec_verify c s, hdata ▸ exec_verify c s'⟩
    · exact ⟨_, _, _, exec_esc s, hdata ▸ exec_esc s'⟩
    · exact ⟨_, _, _, exec_unesc s, hdata ▸ exec_unesc s'⟩
  rw [hs] at ht
  rw [hs'] at ht'
  cases ht
  cases ht'
  simp

end Sys2Proof.Machine
end

section
/-! The invariants of 10_state.md R27, and what a step never rewrites. -/

namespace Sys2Proof.Machine

/-- The invariants speak of the mode, the pending flag and the accumulator, and bound the payload. -/
theorem State.Inv.of_eq {s t : State} (h : s.Inv) (hescaped : t.escaped = s.escaped)
    (hpending : t.escPending = s.escPending) (hacc : t.acc = s.acc) (hdata : t.dataLen ≤ 65535) : t.Inv where
  pendingEscaped := by rw [hescaped, hpending]; exact h.pendingEscaped
  withinFrame := by rw [State.declaredLength_of_acc_eq hacc, State.accCnt, hacc]; exact h.withinFrame
  dataFits := hdata
  pendingIncomplete := by rw [hpending, State.rem_of_acc_eq hacc]; exact h.pendingIncomplete

theorem State.fresh_inv (s : State) (e : Bool) : (s.fresh e).Inv where
  pendingEscaped := fun h => by cases h
  withinFrame := fun len h => by cases h
  dataFits := Nat.zero_le _
  pendingIncomplete := fun h => by cases h

/-- Settles O51: the reset state is a fresh frame. -/
theorem resetMeetsTheInvariants : Obligations.ResetMeetsTheInvariants := by
  unfold Obligations.ResetMeetsTheInvariants
  exact State.fresh_inv State.reset false

/-- A byte stored on an incomplete frame stays within it (V2). -/
theorem State.withinFrame_of_stored {s t : State} {c : Byte} (hacc : t.acc = s.acc ++ [c]) (hrem : s.rem ≠ 0) {len : Nat}
    (hlen : t.declaredLength = some len) : t.accCnt ≤ len + 4 := by
  have ht : t.accCnt = s.accCnt + 1 := by simp [State.accCnt, hacc]
  rcases hs : s.declaredLength with _ | len'
  · have := s.declaredLength_eq_none_iff.mp hs
    omega
  · rw [State.declaredLength_append hacc hs] at hlen
    cases hlen
    rw [State.rem_of_declaredLength hs] at hrem
    omega

/-- FILL keeps the invariants: a marker is consumed only in escaped mode and with bytes missing, a stored byte clears the flag. -/
theorem State.Inv.feed {s : State} (h : s.Inv) (b : Byte) : (s.feed b).Inv := by
  by_cases hrem : s.rem = 0
  · rw [State.feed_of_complete hrem]
    exact h.of_eq rfl rfl rfl h.dataFits
  · have hdata : (s.feed b).dataLen ≤ 65535 := by rw [State.dataLen, State.feed_data]; exact h.dataFits
    obtain ⟨hmode, hacc⟩ | ⟨c, hacc, hclear⟩ := State.feed_consumes_or_stores hrem b
    · exact {
        pendingEscaped := fun _ => by rw [State.feed_escaped, hmode]
        withinFrame := by rw [State.declaredLength_of_acc_eq hacc, State.accCnt, hacc]; exact h.withinFrame
        dataFits := hdata
        pendingIncomplete := fun _ => by rw [State.rem_of_acc_eq hacc]; exact Nat.pos_of_ne_zero hrem }
    · exact {
        pendingEscaped := fun hp => by rw [hclear] at hp; cases hp
        withinFrame := fun len hlen => State.withinFrame_of_stored hacc hrem hlen
        dataFits := hdata
        pendingIncomplete := fun hp => by rw [hclear] at hp; cases hp }

theorem State.Inv.feedAll {s : State} (h : s.Inv) (bytes : List Byte) : (s.feedAll bytes).Inv := by
  induction bytes generalizing s with
  | nil => exact h
  | cons b bytes ih => exact ih (h.feed b)

theorem State.Inv.exec {s t : State} {i : Instr} (h : s.Inv) (ht : exec i s = .next t) : t.Inv := by
  obtain ⟨e, -, hexec⟩ | ⟨bytes, -, hexec⟩ | ⟨d, st, n, out, hexec, hfits, -⟩ := exec_cases i s <;>
    rw [hexec] at ht <;> cases ht
  · exact (s.fresh_inv e).of_eq rfl rfl rfl (Nat.zero_le _)
  · exact h.feedAll bytes
  · exact h.of_eq rfl rfl rfl (hfits h.dataFits)

/-- Settles O52: a step runs an operation, resets, or changes none of the elements the invariants speak of. -/
theorem stepKeepsTheInvariants : Obligations.StepKeepsTheInvariants := by
  unfold Obligations.StepKeepsTheInvariants
  intro s t h ht
  have hinputs : ∀ inputs, ({ s with inputs := inputs } : State).Inv := fun _ => h.of_eq rfl rfl rfl h.dataFits
  obtain ⟨-, hstep⟩ | ⟨rest, -, hstep⟩ | ⟨w, rest, r, -, -, hstep⟩ | ⟨rest, -, hstep⟩ | ⟨w, rest, i, -, -, hstep⟩
    | ⟨bytes, rest, i, left, -, -, hstep⟩ := step_cases s <;> rw [hstep] at ht
  · cases ht
    exact h
  · cases ht
    exact State.fresh_inv _ _
  · cases ht
    exact h.of_eq rfl rfl rfl h.dataFits
  · cases ht
    exact hinputs rest
  · exact (hinputs rest).exec ht
  · exact (hinputs (remainingInputs left rest)).exec ht

/-- Settles O53: V2 bounds the accumulator by the largest declared length. -/
theorem invariantsBoundTheBuffers : Obligations.InvariantsBoundTheBuffers := by
  unfold Obligations.InvariantsBoundTheBuffers
  intro s h
  have hacc : s.accCnt ≤ 65539 := by
    rcases hlen : s.declaredLength with _ | len
    · have := s.declaredLength_eq_none_iff.mp hlen
      omega
    · have := h.withinFrame len hlen
      have := State.declaredLength_le hlen
      omega
  exact ⟨hacc, h.dataFits, s.rem_le, (Memory.wf_iff s).mpr ⟨hacc, h.dataFits⟩⟩

/-- The accumulator is extended, never rewritten (V5). -/
theorem memRead_of_extended {s t : State} {more : List Byte} (hacc : t.acc = s.acc ++ more) :
    (∀ a, a < s.accCnt → t.memRead .acc a = s.memRead .acc a) ∧ s.accCnt ≤ t.accCnt
      ∧ ∀ len, s.declaredLength = some len → t.declaredLength = some len := by
  refine ⟨fun a ha => ?_, ?_, fun len hlen => State.declaredLength_append hacc hlen⟩
  · rw [State.memRead_acc, State.memRead_acc, hacc, List.getElem?_append_left ha]
  · rw [State.accCnt, State.accCnt, hacc, List.length_append]
    exact Nat.le_add_right _ _

theorem exec_extends_acc {i : Instr} {s t : State} (hnew : ∀ e, i ≠ .new e) (ht : exec i s = .next t) :
    ∃ more, t.acc = s.acc ++ more := by
  obtain ⟨e, hi, -⟩ | ⟨bytes, -, hexec⟩ | ⟨d, st, n, out, hexec, -⟩ := exec_cases i s
  · exact absurd hi (hnew e)
  · rw [hexec] at ht
    cases ht
    obtain ⟨more, hmore, -⟩ := s.feedAll_acc bytes
    exact ⟨more, hmore⟩
  · rw [hexec] at ht
    cases ht
    exact ⟨[], (List.append_nil _).symm⟩

/-- NEW has two command words (30_encoding.md R57). -/
theorem word_of_new {w : CommandWord} {e : Bool} (hw : decodeCommand w = .ok (.new e)) : w = 0x100 ∨ w = 0x101 := by
  have henc := commandWordHasOneMeaning w _ hw
  cases e <;> cases henc <;> decide

theorem not_new_of_isItemOf {i : Instr} {bytes : List Byte} (hi : IsItemOf i bytes) (e : Bool) : i ≠ .new e := by
  rintro rfl
  obtain henc | ⟨b, h, -⟩ := hi
  · cases henc
  · cases h

/-- Settles O54: no step without reset and NEW writes `acc` but by appending to it. -/
theorem storedBytesAreNeverRewritten : Obligations.StoredBytesAreNeverRewritten := by
  unfold Obligations.StoredBytesAreNeverRewritten
  intro s t ht hreset hnew0 hnew1
  suffices h : ∃ more, t.acc = s.acc ++ more by
    obtain ⟨more, hmore⟩ := h
    exact memRead_of_extended hmore
  have unchanged : s.acc = s.acc ++ [] := (List.append_nil _).symm
  obtain ⟨-, hstep⟩ | ⟨rest, hin, -⟩ | ⟨w, rest, r, -, -, hstep⟩ | ⟨rest, -, hstep⟩ | ⟨w, rest, i, hin, hw, hstep⟩
    | ⟨bytes, rest, i, left, -, hdec, hstep⟩ := step_cases s
  · rw [hstep] at ht
    cases ht
    exact ⟨[], unchanged⟩
  · rw [hin] at hreset
    exact absurd rfl hreset
  · rw [hstep] at ht
    cases ht
    exact ⟨[], unchanged⟩
  · rw [hstep] at ht
    cases ht
    exact ⟨[], unchanged⟩
  · rw [hstep] at ht
    refine exec_extends_acc (s := { s with inputs := rest }) (fun e hi => ?_) ht
    rw [hin] at hnew0 hnew1
    obtain rfl | rfl := word_of_new (hi ▸ hw)
    · exact hnew0 rfl
    · exact hnew1 rfl
  · rw [hstep] at ht
    obtain ⟨-, hnone⟩ | ⟨j, front, left', -, -, hitem, hsome⟩ := decodeWire_cases bytes
    · rw [hdec] at hnone
      cases hnone
    · rw [hdec] at hsome
      cases hsome
      exact exec_extends_acc (s := { s with inputs := remainingInputs left rest }) (not_new_of_isItemOf hitem) ht

end Sys2Proof.Machine
end

section
/-! The responses: one for each command word, and which status it has (60_exceptions.md R115 to R125). -/

namespace Sys2Proof.Machine

/-- Settles O58: the packed form is the concatenation of its two fields. -/
theorem statusCodesAndPackedResponse : Obligations.StatusCodesAndPackedResponse := by
  unfold Obligations.StatusCodesAndPackedResponse
  exact ⟨rfl, rfl, rfl, rfl, rfl, rfl,
    fun r => ⟨BitVec.extractLsb'_append_eq_left, BitVec.extractLsb'_append_eq_right⟩⟩

/-- Settles O55: each of the six operations is one answer with status OK. -/
theorem queriesWriteNothing : Obligations.QueriesWriteNothing := by
  unfold Obligations.QueriesWriteNothing
  intro i s t hi ht
  obtain ⟨n, out, hexec⟩ : ∃ n out, exec i s = .next (s.respond .ok n out) := by
    obtain rfl | rfl | rfl | ⟨c, rfl⟩ | rfl | rfl := hi
    · exact ⟨_, _, exec_rem s⟩
    · exact ⟨_, _, exec_output s⟩
    · exact ⟨_, _, exec_csum s⟩
    · exact ⟨_, _, exec_verify c s⟩
    · exact ⟨_, _, exec_esc s⟩
    · exact ⟨_, _, exec_unesc s⟩
  rw [hexec] at ht
  cases ht
  exact ⟨⟨_, rfl, rfl⟩, fun sp a => s.respond_memRead .ok n out sp a⟩

/-- The one operation of the command port that feeds a byte is FILL. -/
theorem eq_fill_of_isItemOf {i : Instr} {w : CommandWord} {bytes : List Byte} (henc : encode i = .command w)
    (hi : IsItemOf i bytes) : ∃ b, i = .fill b ∧ bytes = [b] := by
  obtain hwire | hfill := hi
  · rw [henc] at hwire
    cases hwire
  · exact hfill

/-- An operation of the command port answers once, and writes only with status OK. -/
theorem exec_answers_once {i : Instr} {w : CommandWord} (henc : encode i = .command w) (s : State) :
    ∃ (t : State) (r : Response), exec i s = .next t ∧ t.responses = s.responses ++ [r]
      ∧ (r.status ≠ .ok → r.out = [] ∧ t = { s with responses := s.responses ++ [r] }) := by
  obtain ⟨e, -, h⟩ | ⟨bytes, hitem, -⟩ | ⟨d, st, n, out, h, -, hkeeps⟩ := exec_cases i s
  · exact ⟨_, _, h, rfl, fun hne => absurd rfl hne⟩
  · obtain ⟨b, rfl, -⟩ := eq_fill_of_isItemOf henc hitem
    by_cases hrem : s.rem = 0
    · exact ⟨_, _, exec_fill_of_complete hrem b, rfl, fun _ => ⟨rfl, rfl⟩⟩
    · exact ⟨_, _, rfl, State.feed_responses hrem b, fun hne => absurd rfl hne⟩
  · refine ⟨_, _, h, rfl, fun hne => ?_⟩
    obtain ⟨rfl, rfl⟩ := hkeeps hne
    exact ⟨rfl, rfl⟩

/-- Settles O56: a reserved word is refused, any other word runs an operation of the command port. -/
theorem refusalsAndErrorsWriteNothing : Obligations.RefusalsAndErrorsWriteNothing := by
  unfold Obligations.RefusalsAndErrorsWriteNothing
  intro w rest s hs
  obtain ⟨i, hw, henc, -⟩ | ⟨-, -, hres⟩ := decodesOrIsReserved w
  · rw [step_of_command hs hw]
    exact exec_answers_once henc _
  · exact ⟨_, _, step_of_reserved hs hres, rfl, fun _ => ⟨rfl, rfl⟩⟩

/-- Each status other than OK has one operation that raises it, under one condition on the state before (60_exceptions.md R115, R125). -/
def StatusHasItsSource (i : Instr) (s : State) (st : Status) : Prop :=
  st ≠ .illegalCmd
  ∧ (st = .notReady ↔ i = .parse ∧ s.rem ≠ 0)
  ∧ (st = .invalidChecksum ↔ i = .parse ∧ s.rem = 0
      ∧ ∃ f, s.received = some f ∧ verify f.payload f.checksum = false)
  ∧ (st = .overrun ↔ (∃ b, i = .fill b) ∧ s.rem = 0)
  ∧ (st = .dataFull ↔ (∃ b, i = .put b) ∧ s.dataLen = 65535)

theorem State.rem_ne_zero_of_not_received {s : State} (hf : s.received = none) : s.rem ≠ 0 := by
  intro hrem
  obtain ⟨_, _, -, -, hsome⟩ := State.received_of_rem_zero hrem
  rw [hf] at hsome
  cases hsome

/-- An operation of the command port answers with a status that has its source in that operation. -/
theorem exec_status {i : Instr} {w : CommandWord} (henc : encode i = .command w) (s : State) :
    ∃ t st v out, exec i s = .next t ∧ t.responses = s.responses ++ [⟨st, v, out⟩] ∧ StatusHasItsSource i s st := by
  cases i with
  | fill b =>
    by_cases hrem : s.rem = 0
    · exact ⟨_, .overrun, _, _, exec_fill_of_complete hrem b, rfl, by simp [StatusHasItsSource, hrem]⟩
    · exact ⟨_, .ok, _, _, rfl, State.feed_responses hrem b, by simp [StatusHasItsSource, hrem]⟩
  | put b =>
    by_cases hfull : s.dataLen = 65535
    · exact ⟨_, .dataFull, _, _, execPut_of_full hfull b, rfl, by simp [StatusHasItsSource, hfull]⟩
    · exact ⟨_, .ok, _, _, execPut_of_room hfull b, rfl, by simp [StatusHasItsSource, hfull]⟩
  | parse =>
    obtain ⟨hf, h⟩ | ⟨f, hf, hv, h⟩ | ⟨f, hf, hv, h⟩ := execParse_by_received s
    · have hrem := State.rem_ne_zero_of_not_received hf
      exact ⟨_, .notReady, _, _, h, rfl, by simp [StatusHasItsSource, hrem]⟩
    · have hrem := State.rem_zero_of_received hf
      exact ⟨_, .ok, _, _, h, rfl, by simp [StatusHasItsSource, hrem, hf, hv]⟩
    · have hrem := State.rem_zero_of_received hf
      exact ⟨_, .invalidChecksum, _, _, h, rfl, by simp [StatusHasItsSource, hrem, hf, hv]⟩
  | new _ | rem | output | csum | verify _ | esc | unesc =>
    exact ⟨_, .ok, _, _, rfl, rfl, by simp [StatusHasItsSource]⟩
  | wireStart | wireMarker | wirePair _ | wirePair7E | wirePair7D | wirePair11 | wirePair13 => cases henc

/-- Settles O57: a reserved word has no operation, any other word has the operation it decodes to. -/
theorem eachStatusHasOneSource : Obligations.EachStatusHasOneSource := by
  unfold Obligations.EachStatusHasOneSource
  intro w rest s t r hs ht hr
  obtain ⟨i, hw, henc, hfree⟩ | ⟨e, hw, hres⟩ := decodesOrIsReserved w
  · obtain ⟨u, st, v, out, hexec, hresp, hill, hsource⟩ := exec_status henc { s with inputs := rest }
    rw [step_of_command hs hw, hexec] at ht
    cases ht
    obtain ⟨rfl, -⟩ := List.cons.inj (List.append_cancel_left (hr.symm.trans hresp))
    rw [hw]
    simp only [Except.ok.injEq]
    exact ⟨iff_of_false hill hfree, hsource⟩
  · rw [step_of_reserved hs hres] at ht
    cases ht
    obtain ⟨rfl, -⟩ := List.cons.inj (List.append_cancel_left hr)
    simp [hw, hres]

end Sys2Proof.Machine
end

section
/-! The reception phases (41_frame_codec.md R93, R94). -/

namespace Sys2Proof.Machine

theorem State.phase_of_empty {s : State} (h : s.accCnt = 0) : s.phase = .awaitingStart :=
  if_pos h

theorem State.phase_of_header {s : State} (hpos : s.accCnt ≠ 0) (hlt : s.accCnt < 3) :
    s.phase = .accumulatingLength := by
  rw [State.phase, if_neg hpos, if_pos hlt]

theorem State.phase_of_incomplete {s : State} (h3 : 3 ≤ s.accCnt) (hrem : s.rem ≠ 0) :
    s.phase = .accumulatingPayload := by
  rw [State.phase, if_neg (by omega), if_neg (by omega), if_neg hrem]

theorem State.phase_of_complete {s : State} (h3 : 3 ≤ s.accCnt) (hrem : s.rem = 0) : s.phase = .complete := by
  rw [State.phase, if_neg (by omega), if_neg (by omega), if_pos hrem]

/-- The phases before and after a stored byte, by the count of bytes before it. -/
theorem State.phase_of_stored {s t : State} {c : Byte} (hacc : t.acc = s.acc ++ [c]) (hrem : s.rem ≠ 0) :
    (s.accCnt = 0 ∧ s.phase = .awaitingStart ∧ t.phase = .accumulatingLength)
    ∨ (s.accCnt = 1 ∧ s.phase = .accumulatingLength ∧ t.phase = .accumulatingLength)
    ∨ (s.accCnt = 2 ∧ s.phase = .accumulatingLength ∧ t.phase = .accumulatingPayload)
    ∨ (s.rem ≠ 1 ∧ s.phase = .accumulatingPayload ∧ t.phase = .accumulatingPayload)
    ∨ (s.rem = 1 ∧ s.phase = .accumulatingPayload ∧ t.phase = .complete) := by
  have hcnt : t.accCnt = s.accCnt + 1 := by simp [State.accCnt, hacc]
  rcases Nat.lt_or_ge s.accCnt 3 with hlt | h3
  · rcases (by omega : s.accCnt = 0 ∨ s.accCnt = 1 ∨ s.accCnt = 2) with h0 | h1 | h2
    · exact .inl ⟨h0, State.phase_of_empty h0, State.phase_of_header (by omega) (by omega)⟩
    · exact .inr (.inl ⟨h1, State.phase_of_header (by omega) hlt, State.phase_of_header (by omega) (by omega)⟩)
    · obtain ⟨-, len, -, hrem'⟩ := State.rem_of_header_completed hacc h2
      exact .inr (.inr (.inl ⟨h2, State.phase_of_header (by omega) hlt,
        State.phase_of_incomplete (by omega) (by omega)⟩))
  · have hmove := State.rem_of_stored hacc hrem (by omega)
    have hphase := State.phase_of_incomplete h3 hrem
    by_cases h1 : s.rem = 1
    · exact .inr (.inr (.inr (.inr ⟨h1, hphase, State.phase_of_complete (by omega) (by omega)⟩)))
    · exact .inr (.inr (.inr (.inl ⟨h1, hphase, State.phase_of_incomplete (by omega) (by omega)⟩)))

/-- Settles O59: the phase is a function of the accumulator, which only NEW, reset and bytes fed write. -/
theorem phaseTransitions : Obligations.PhaseTransitions := by
  unfold Obligations.PhaseTransitions
  refine ⟨fun i s t hnew hfill hwire ht => ?_, fun e s t ht => ?_, fun s rest hs => ⟨_, step_of_reset hs, rfl⟩,
    fun s t ht hs => ?_, fun b s t ht => ?_⟩
  · obtain ⟨e, hi, -⟩ | ⟨bytes, henc | ⟨b, hi, -⟩, -⟩ | ⟨d, st, n, out, h, -⟩ := exec_cases i s
    · exact absurd hi (hnew e)
    · exact absurd henc (hwire bytes)
    · exact absurd hi (hfill b)
    · rw [h] at ht
      cases ht
      rfl
  · cases ht
    rfl
  · obtain hidle | hempty | ⟨w, hw, hword⟩ := hs
    · rw [step_of_idle hidle] at ht
      cases ht
      rfl
    · obtain ⟨rest, hin⟩ := List.head?_eq_some_iff.mp hempty
      rw [step_of_empty_chunk hin] at ht
      cases ht
      rfl
    · obtain ⟨rest, hin⟩ := List.head?_eq_some_iff.mp hword
      rw [step_of_reserved hin hw] at ht
      cases ht
      rfl
  · cases ht
    obtain hacc | ⟨hrem, c, hacc⟩ := s.feed_keeps_or_stores b
    · have hcnt : (s.feed b).accCnt = s.accCnt := by rw [State.accCnt, hacc, State.accCnt]
      exact ⟨fun _ => State.phase_of_acc_eq hacc, fun hne => absurd hcnt hne⟩
    · have hcnt : (s.feed b).accCnt = s.accCnt + 1 := by simp [State.accCnt, hacc]
      exact ⟨fun h => by omega, fun _ => ⟨hcnt, State.phase_of_stored hacc hrem⟩⟩

end Sys2Proof.Machine
end

section
/-! The round trip of a frame (41_frame_codec.md R110): what the receiver makes of the wire frame as it arrives, in either mode. -/

namespace Sys2Proof.Machine

/-- The bytes a receiver stores of a sequence of wire bytes, and its pending flag after them, from no marker pending (30_encoding.md R53). -/
def receiveAll (escaped : Bool) (u : List Byte) : List Byte × Bool :=
  if escaped then unescape u else (u, false)

/-- One byte more is received by the table of R53. -/
theorem receiveAll_concat (escaped : Bool) (u : List Byte) (b : Byte) : receiveAll escaped (u ++ [b])
    = ((receiveAll escaped u).1 ++ (receive escaped (receiveAll escaped u).2 b).2.toList,
      (receive escaped (receiveAll escaped u).2 b).1) := by
  cases escaped
  case false => rfl
  case true => simp only [receiveAll, if_true, unescape_concat, receive_escaped]

theorem receiveAll_extends (escaped : Bool) (u v : List Byte) :
    ∃ more, (receiveAll escaped (u ++ v)).1 = (receiveAll escaped u).1 ++ more := by
  induction v using List.reverseRecOn with
  | nil => exact ⟨[], by rw [List.append_nil, List.append_nil]⟩
  | append_singleton v b ih =>
    obtain ⟨more, hmore⟩ := ih
    rw [← List.append_assoc, receiveAll_concat, hmore, List.append_assoc]
    exact ⟨_, rfl⟩

/-- The last byte of a sequence that leaves no marker pending is stored, so every shorter initial part stores less. -/
theorem receiveAll_strictly_extends {escaped : Bool} {u v : List Byte} (hv : v ≠ [])
    (hclear : (receiveAll escaped (u ++ v)).2 = false) :
    ∃ more, more ≠ [] ∧ (receiveAll escaped (u ++ v)).1 = (receiveAll escaped u).1 ++ more := by
  obtain ⟨v', b, rfl⟩ := (List.eq_nil_or_concat' v).resolve_left hv
  obtain ⟨more, hmore⟩ := receiveAll_extends escaped u v'
  rw [← List.append_assoc, receiveAll_concat] at hclear ⊢
  rw [hmore, List.append_assoc]
  refine ⟨_, ?_, rfl⟩
  obtain ⟨-, h⟩ | ⟨-, -, -, h⟩ | ⟨-, -, h⟩ := receive_cases escaped (receiveAll escaped (u ++ v')).2 b
  · simp [h]
  · simp [h] at hclear
  · simp [h]

/-- Of the wire frame a receiver in the same mode stores the bare frame. -/
theorem receiveAll_frameBytes (escaped : Bool) (p : List Byte) :
    receiveAll escaped (frameBytes escaped p) = (frameBytes false p, false) := by
  cases escaped
  case false => rfl
  case true =>
    have hstart : unescape [0x7E] = ([0x7E], false) := by decide
    rw [receiveAll, if_pos rfl, frameBytes_escaped, ← List.singleton_append, unescape_append hstart, unescape_escape]
    rfl

/-! The bare frame in the accumulator. -/

theorem frameBytes_unescaped (p : List Byte) :
    frameBytes false p = [0x7E, lenMsb p.length, lenLsb p.length] ++ p ++ [checksum p] := rfl

theorem State.received_of_frame {s : State} {p : List Byte} (hp : p.length ≤ 65535)
    (hacc : s.acc = frameBytes false p) :
    s.received = some { length := p.length, payload := p, checksum := checksum p } :=
  State.received_of_acc (hacc.trans (frameBytes_unescaped p)) (lengthOfBytes_of_length hp).symm

/-- A frame that lacks a byte has a remaining count. -/
theorem State.rem_ne_zero_of_frame_begun {s : State} {p more : List Byte} (hp : p.length ≤ 65535)
    (hacc : frameBytes false p = s.acc ++ more) (hmore : more ≠ []) : s.rem ≠ 0 := by
  rcases hlen : s.declaredLength with _ | len
  · have hlt := s.declaredLength_eq_none_iff.mp hlen
    rw [State.rem_of_header hlen]
    omega
  · have hframe : ({ s with acc := frameBytes false p } : State).declaredLength = some p.length :=
      congrArg some (lengthOfBytes_of_length hp)
    rw [State.declaredLength_append hacc hlen] at hframe
    cases hframe
    have hcnt : p.length + 4 = s.accCnt + more.length := by
      rw [State.accCnt, ← List.length_append, ← hacc, length_frameBytes]
      rfl
    have hpos := List.length_pos_of_ne_nil hmore
    rw [State.rem_of_declaredLength hlen]
    omega

/-! The wire frame fed to a fresh frame. -/

/-- The bytes `u` were fed from `s` on and every one accepted: stored or consumed by the table of R53, and answered OK. -/
structure State.Accepts (s : State) (u : List Byte) : Prop where
  acc : (s.feedAll u).acc = (receiveAll s.escaped u).1
  pending : (s.feedAll u).escPending = (receiveAll s.escaped u).2
  answers : ∃ rs, (s.feedAll u).responses = s.responses ++ rs ∧ ∀ r ∈ rs, r.status = .ok

theorem State.accepts_nil {s : State} (hacc : s.acc = []) (hpending : s.escPending = false) : s.Accepts [] where
  acc := by rw [State.feedAll_nil, hacc]; cases s.escaped <;> rfl
  pending := by rw [State.feedAll_nil, hpending]; cases s.escaped <;> rfl
  answers := ⟨[], (List.append_nil _).symm, by simp⟩

theorem State.Accepts.concat {s : State} {u : List Byte} (h : s.Accepts u) (hrem : (s.feedAll u).rem ≠ 0) (b : Byte) :
    s.Accepts (u ++ [b]) := by
  have hfeed : s.feedAll (u ++ [b]) = (s.feedAll u).feed b := s.feedAll_append u [b]
  obtain ⟨hacc, hpending, rs, hrs, hok⟩ := h
  constructor
  case acc =>
    rw [hfeed, State.feed_of_incomplete hrem, State.respond_acc, State.acceptByte_acc, hacc, hpending,
      State.feedAll_escaped, receiveAll_concat]
  case pending =>
    rw [hfeed, State.feed_of_incomplete hrem, State.respond_escPending, State.acceptByte_escPending, hpending,
      State.feedAll_escaped, receiveAll_concat]
  case answers =>
    refine ⟨_, by rw [hfeed, State.feed_responses hrem, hrs, List.append_assoc], fun r hr => ?_⟩
    obtain hold | hnew := List.mem_append.mp hr
    · exact hok r hold
    · rw [List.mem_singleton.mp hnew]

/-- Below its last byte the wire frame leaves the frame incomplete. -/
theorem State.Accepts.rem_ne_zero {s : State} {u v p : List Byte} (h : s.Accepts u) (hp : p.length ≤ 65535)
    (hwire : frameBytes s.escaped p = u ++ v) (hv : v ≠ []) : (s.feedAll u).rem ≠ 0 := by
  have hall := receiveAll_frameBytes s.escaped p
  rw [hwire] at hall
  obtain ⟨more, hmore, hext⟩ := receiveAll_strictly_extends hv (congrArg Prod.snd hall)
  rw [hall, ← h.acc] at hext
  exact State.rem_ne_zero_of_frame_begun hp hext hmore

/-- A fresh frame accepts every initial part of the wire frame of its own mode. -/
theorem State.accepts_initial_part {s : State} (hacc : s.acc = []) (hpending : s.escPending = false) {p : List Byte}
    (hp : p.length ≤ 65535) (u v : List Byte) (hwire : frameBytes s.escaped p = u ++ v) : s.Accepts u := by
  induction u using List.reverseRecOn generalizing v with
  | nil => exact State.accepts_nil hacc hpending
  | append_singleton u b ih =>
    rw [List.append_assoc] at hwire
    have hu := ih ([b] ++ v) hwire
    exact hu.concat (hu.rem_ne_zero hp hwire (by simp)) b

/-! The transmit side: the PUTs of a payload. -/

/-- The state in which NEW leaves the block. -/
def State.renewed (s : State) (e : Bool) : State := (s.fresh e).respond .ok 0 []

/-- PUTs that fit append the payload, in the mode they find. -/
theorem execAll_put (p : List Byte) (s : State) (hfits : s.dataLen + p.length ≤ 65535) :
    ∃ t, execAll (p.map .put) s = .next t ∧ t.escaped = s.escaped ∧ t.data = s.data ++ p := by
  induction p generalizing s with
  | nil => exact ⟨s, rfl, rfl, (List.append_nil _).symm⟩
  | cons b p ih =>
    rw [List.length_cons] at hfits
    obtain ⟨t, ht, hmode, hdata⟩ := ih (({ s with data := s.data ++ [b] } : State).respond .ok (s.dataLen + 1) []) (by
      rw [State.respond_dataLen, State.dataLen, List.length_append, List.length_singleton, ← State.dataLen]
      omega)
    refine ⟨t, ?_, hmode, by rw [hdata, State.respond_data, List.append_assoc, List.singleton_append]⟩
    rw [List.map_cons, execAll, exec_put, execPut_of_room (by omega) b]
    exact ht

/-- NEW, the PUTs of a payload and OUTPUT end with the answer of the payload's wire frame. -/
theorem execAll_transmit (e : Bool) (p : List Byte) (s : State) (hp : p.length ≤ 65535) :
    ∃ t n, execAll (.new e :: p.map .put ++ [.output]) s = .next t
      ∧ t.responses.getLast? = some { status := .ok, value := n, out := frameBytes e p } := by
  obtain ⟨t, ht, hmode, hdata⟩ := execAll_put p (s.renewed e) (by
    rw [Nat.add_comm]
    exact hp)
  have hframe : frameBytes t.escaped t.data = frameBytes e p := by rw [hmode, hdata]; rfl
  have hputs : execAll (.new e :: p.map .put) s = .next t := ht
  have houtput : execAll [.output] t = .next (t.respond .ok (frameBytes e p).length (frameBytes e p)) := by
    rw [← hframe]
    rfl
  exact ⟨_, _, (execAll_append hputs [.output]).trans houtput, List.getLast?_concat⟩

theorem execAll_new_fill (e : Bool) (u : List Byte) (s : State) :
    execAll (.new e :: u.map .fill) s = .next ((s.renewed e).feedAll u) :=
  execAll_fill u (s.renewed e)

/-- Settles O60: what NEW, the PUTs and OUTPUT answer is the wire frame, every initial part of which a fresh frame accepts, and the
whole of which leaves the bare frame in the accumulator. -/
theorem frameRoundTrip : Obligations.FrameRoundTrip := by
  unfold Obligations.FrameRoundTrip
  intro e p s hp
  obtain ⟨t, n, htransmit, hlast⟩ := execAll_transmit e p s hp
  have accepts : ∀ u v, frameBytes e p = u ++ v → (t.renewed e).Accepts u :=
    State.accepts_initial_part (s := t.renewed e) rfl rfl hp
  have hwhole := accepts (frameBytes e p) [] (List.append_nil _).symm
  have hall : receiveAll (t.renewed e).escaped (frameBytes e p) = (frameBytes false p, false) :=
    receiveAll_frameBytes e p
  have hreceived := State.received_of_frame hp (hwhole.acc.trans (congrArg Prod.fst hall))
  have hverified := (verify_eq_true_iff_checksum p (checksum p)).mpr rfl
  obtain ⟨rs, hrs, hok⟩ := hwhole.answers
  refine ⟨t, (t.renewed e).feedAll (frameBytes e p), _, frameBytes e p, n, htransmit, hlast, execAll_new_fill e _ t, ?answers,
    State.rem_zero_of_received hreceived, hwhole.pending.trans (congrArg Prod.snd hall), ?incomplete,
    execParse_of_verified hreceived hverified, rfl, rfl⟩
  case answers =>
    intro r hr
    have hresponses : ((t.renewed e).feedAll (frameBytes e p)).responses
        = t.responses ++ ({ status := .ok, value := 0, out := [] } :: rs) := by
      rw [hrs, State.renewed, State.respond_responses, State.fresh_responses, List.append_assoc]
      rfl
    rw [hresponses, List.drop_left] at hr
    obtain rfl | hr := List.mem_cons.mp hr
    · rfl
    · exact hok r hr
  case incomplete =>
    intro k hk
    have hsplit := (List.take_append_drop k (frameBytes e p)).symm
    refine ⟨_, execAll_new_fill e _ t, (accepts _ _ hsplit).rem_ne_zero hp hsplit ?_⟩
    rw [Ne, List.drop_eq_nil_iff]
    omega

end Sys2Proof.Machine
end
